-- ==== Sys2Proof/Word.lean ====
section
/-! DEFINITION. The word types of the machine: the 8-bit byte (registers, memory cells, operand bytes),
the 9-bit program counter and the register index. -/

namespace Sys2Proof

/-- An 8-bit unsigned value: a general register, a memory cell, an operand byte (R4 `XLEN`, R6). -/
abbrev Byte := BitVec 8

/-- A 9-bit program counter value (R4 `PCW`, R26). -/
abbrev PcWord := BitVec 9

/-- An index 0..7 of the register file (R21). -/
abbrev RegIdx := Fin 8

end Sys2Proof
end

