-- ==== Sys2Proof/Syntax.lean ====
section
/-! DEFINITION. The instructions as syntax: one constructor per row of spec/opcode_table.json, each with
its operand bytes as they stand in memory (R82), and the four formats. -/

namespace Sys2Proof

/-- The 13 instructions (R1, R85). A register operand is the whole operand byte (R83), so that a byte above 7 can be
written down: WellFormed.lean says which are legal. -/
inductive Instr where
  | hlt
  | ldi (r imm : Byte)
  | prn (r : Byte)
  | add (a b : Byte)
  | mul (a b : Byte)
  | push (r : Byte)
  | pop (r : Byte)
  | call (r : Byte)
  | ret
  | cmp (a b : Byte)
  | jmp (r : Byte)
  | jeq (r : Byte)
  | jne (r : Byte)
  deriving DecidableEq, Repr

/-- What the instruction byte names: the instruction without its operands (R86). -/
inductive Opcode where
  | hlt | ldi | prn | add | mul | push | pop | call | ret | cmp | jmp | jeq | jne
  deriving DecidableEq, Repr

/-- The four formats of R82: no operand, one register, two registers, register and immediate. -/
inductive Format where
  | z | r | rr | ri
  deriving DecidableEq, Repr

/-- The opcode of an instruction. -/
def Instr.opcode : Instr → Opcode
  | .hlt => .hlt
  | .ldi _ _ => .ldi
  | .prn _ => .prn
  | .add _ _ => .add
  | .mul _ _ => .mul
  | .push _ => .push
  | .pop _ => .pop
  | .call _ => .call
  | .ret => .ret
  | .cmp _ _ => .cmp
  | .jmp _ => .jmp
  | .jeq _ => .jeq
  | .jne _ => .jne

/-- The format of each opcode, by the table of R82. -/
def Opcode.format : Opcode → Format
  | .hlt | .ret => .z
  | .prn | .push | .pop | .call | .jmp | .jeq | .jne => .r
  | .add | .mul | .cmp => .rr
  | .ldi => .ri

/-- The operand count `n` of a format (R80, R82). -/
def Format.operandCount : Format → Nat
  | .z => 0
  | .r => 1
  | .rr => 2
  | .ri => 2

/-- The length of an instruction in bytes, `1 + n` (R81). -/
def Instr.length (i : Instr) : Nat := 1 + i.opcode.format.operandCount

/-- The operand bytes that are register indices, in encoding order (R82, R83): all but LDI's immediate. -/
def Instr.registerBytes : Instr → List Byte
  | .hlt | .ret => []
  | .ldi r _ => [r]
  | .prn r | .push r | .pop r | .call r | .jmp r | .jeq r | .jne r => [r]
  | .add a b | .mul a b | .cmp a b => [a, b]

end Sys2Proof
end

