-- ==== Sys2Proof/WellFormed.lean ====
section
/-! DEFINITION. Which instruction terms are instructions of the machine: every register operand byte is 0..7 (R83). -/

namespace Sys2Proof

/-- A register operand byte is legal when it is at most 7 (R83). -/
def legalReg (b : Byte) : Bool := decide (b.toNat ≤ 7)

/-- Every register operand of the instruction is legal (R83, R84: LDI's immediate is never checked). -/
def Instr.wf (i : Instr) : Bool := i.registerBytes.all legalReg

/-- The instruction is well-formed. -/
abbrev Instr.WellFormed (i : Instr) : Prop := i.wf = true

end Sys2Proof
end

