-- ==== Sys2Proof/Decode.lean ====
section
/-! DEFINITION. Decoding and encoding (30_encoding.md): the opcode map, the register operand check, the
decoder, total on any list of bytes, and the encoder. -/

namespace Sys2Proof

/-- `OPC`: the instruction byte of each opcode (R85).
UNVERIFIED, unsafe (log entry 1): the byte values are the spec's decision D1, taken from general knowledge. -/
def Opcode.byte : Opcode → Byte
  | .hlt => 0x01
  | .ldi => 0x82
  | .prn => 0x47
  | .add => 0xA0
  | .mul => 0xA2
  | .push => 0x45
  | .pop => 0x46
  | .call => 0x50
  | .ret => 0x11
  | .cmp => 0xA7
  | .jmp => 0x54
  | .jeq => 0x55
  | .jne => 0x56

/-- The 13 opcodes, in the order of the opcode map (R85). -/
def opcodeTable : List Opcode :=
  [.hlt, .ldi, .prn, .add, .mul, .push, .pop, .call, .ret, .cmp, .jmp, .jeq, .jne]

/-- `decode(b)` of R86: all 8 bits are compared with the 13 instruction bytes. -/
def opcode? (b : Byte) : Option Opcode := opcodeTable.find? fun op => op.byte == b

/-- The index a register operand byte names, if it names one (R83). -/
def regIndex? (b : Byte) : Option RegIdx :=
  if h : b.toNat < 8 then some ⟨b.toNat, h⟩ else none

/-- The operand byte of a register index (R83: the whole byte is the index). -/
def regByte (r : RegIdx) : Byte := BitVec.ofNat 8 r.val

/-- Why bytes are no instruction. -/
inductive DecodeError where
  /-- The first byte is none of the 13 instruction bytes (R87). -/
  | unknownOpcode (b : Byte)
  /-- The bytes end before the instruction does (R57, R113). -/
  | missingByte
  /-- A register operand byte is above 7 (R83). -/
  | invalidRegister (b : Byte)
  deriving DecidableEq, Repr

/-- Format Z: no operand byte is read (R82). -/
def readZ (i : Instr) (bs : List Byte) : Except DecodeError (Instr × List Byte) := .ok (i, bs)

/-- Format R: one register operand (R82, R83). -/
def readR (mk : Byte → Instr) : List Byte → Except DecodeError (Instr × List Byte)
  | o0 :: rest => if legalReg o0 then .ok (mk o0, rest) else .error (.invalidRegister o0)
  | [] => .error .missingByte

/-- Format RR: both operand bytes are read, then checked, operand 0 first (R83, R187). -/
def readRR (mk : Byte → Byte → Instr) : List Byte → Except DecodeError (Instr × List Byte)
  | o0 :: o1 :: rest =>
    if legalReg o0 then
      if legalReg o1 then .ok (mk o0 o1, rest) else .error (.invalidRegister o1)
    else .error (.invalidRegister o0)
  | _ => .error .missingByte

/-- Format RI: operand 0 is a register, operand 1 an immediate that is never checked (R83, R84). -/
def readRI (mk : Byte → Byte → Instr) : List Byte → Except DecodeError (Instr × List Byte)
  | o0 :: o1 :: rest =>
    if legalReg o0 then .ok (mk o0 o1, rest) else .error (.invalidRegister o0)
  | _ => .error .missingByte

/-- The operand bytes of an opcode, read and checked by its format (R82). -/
def readOperands : Opcode → List Byte → Except DecodeError (Instr × List Byte)
  | .hlt => readZ .hlt
  | .ldi => readRI .ldi
  | .prn => readR .prn
  | .add => readRR .add
  | .mul => readRR .mul
  | .push => readR .push
  | .pop => readR .pop
  | .call => readR .call
  | .ret => readZ .ret
  | .cmp => readRR .cmp
  | .jmp => readR .jmp
  | .jeq => readR .jeq
  | .jne => readR .jne

/-- The decoder: the instruction at the head of the bytes and the bytes after it, or why there is none
(R86, R113; the order of the tests is steps 2 to 6 of R187). -/
def decode : List Byte → Except DecodeError (Instr × List Byte)
  | [] => .error .missingByte
  | b :: rest =>
    match opcode? b with
    | none => .error (.unknownOpcode b)
    | some op => readOperands op rest

/-- The bytes of an instruction, lowest address first (R56, R82). -/
def encode : Instr → List Byte
  | .hlt => [Opcode.hlt.byte]
  | .ldi r imm => [Opcode.ldi.byte, r, imm]
  | .prn r => [Opcode.prn.byte, r]
  | .add a b => [Opcode.add.byte, a, b]
  | .mul a b => [Opcode.mul.byte, a, b]
  | .push r => [Opcode.push.byte, r]
  | .pop r => [Opcode.pop.byte, r]
  | .call r => [Opcode.call.byte, r]
  | .ret => [Opcode.ret.byte]
  | .cmp a b => [Opcode.cmp.byte, a, b]
  | .jmp r => [Opcode.jmp.byte, r]
  | .jeq r => [Opcode.jeq.byte, r]
  | .jne r => [Opcode.jne.byte, r]

/-- The three bytes (the longest instruction, R80) that lie in memory for a table word of `nbits` bits: the first byte
is bits 7..0, and every bit above `nbits` is 0. -/
def wordBytes (nbits w : Nat) : List Byte :=
  let v := w % 2 ^ nbits
  [BitVec.ofNat 8 v, BitVec.ofNat 8 (v / 256), BitVec.ofNat 8 (v / 65536)]

/-- The instruction the decoder reads from a word numbered as spec/opcode_table.json numbers it. -/
def decodeTableWord (nbits w : Nat) : Option Instr :=
  match decode (wordBytes nbits w) with
  | .ok (i, _) => some i
  | .error _ => none

end Sys2Proof
end

