-- ==== Sys2Proof/Config.lean ====
section
/-! DEFINITION. The implementation parameters of rule R4, each with the value the spec fixes.
The spec leaves no value open at run time (R11; 93_implementation_defined.md treats nothing as
`any value`), so there is no free value here. The opcode map `OPC` stands in Decode.lean. -/

namespace Sys2Proof.Config

/-- MEMSIZE, the number of memory cells (R4, R50). -/
def memSize : Nat := 256

/-- SPREG, the index of the stack pointer register (R4, R22). -/
abbrev spReg : RegIdx := 7

/-- SP_RESET, the reset value of register 7 (R4, R36). -/
def spReset : Byte := 0xF4

/-- PC_RESET, the reset value of the program counter and the load address of the image (R4, R211). -/
def pcReset : PcWord := 0

/-- What a memory cell that nothing has written holds (R34 "zero-initialized", R64). -/
def blankCell : Byte := 0

end Sys2Proof.Config
end

