-- ==== Sys2Proof/Machine/State.lean ====
section
/-! DEFINITION. The state of the machine (R20, "and nothing else"), the reasons a step can stop, and the state after
reset (R36). -/

namespace Sys2Proof.Machine

/-- The execution state `run` (R32, R110). -/
inductive RunState where
  | running
  | halted
  | faulted
  deriving DecidableEq, Repr

/-- Memory: the cells that differ from `Config.blankCell`, by rising address (R34, R50). -/
abbrev Memory := List Host.Cell

/-- The canonical form: addresses strictly rising and below 256, no entry equal to what an unlisted address reads as. -/
abbrev Memory.wf (m : Memory) : Prop :=
  m.Pairwise (fun p q => p.1 < q.1) ∧ ∀ p ∈ m, p.1 < Config.memSize ∧ p.2 ≠ Config.blankCell

/-- The complete state of the machine (R20). -/
structure State where
  /-- The general registers R0..R7; R7 is the stack pointer (R21, R22). -/
  x : Vector Byte 8
  /-- The program counter, 9 bits, never wraps (R25, R26). -/
  pc : PcWord
  /-- The flags register: EQUAL bit 0, GREATER_THAN bit 1, LESS_THAN bit 2 (R28). -/
  fl : Byte
  /-- The instruction register: the most recently fetched instruction byte (R31). -/
  ir : Byte
  /-- The execution state (R32). -/
  run : RunState
  /-- The fault cause, 0 while no fault has happened (R33, R186). -/
  fcause : BitVec 3
  /-- The fault information (R33, R186). -/
  finfo : BitVec 9
  /-- The 256 memory cells (R34). -/
  mem : Memory
  /-- The values PRN has emitted, oldest first (R35). -/
  out : List Byte
  deriving DecidableEq, Repr

/-- Why there is no step. A fault of the hardware is none of these: it is a next state with `run` = FAULTED (R188). -/
inductive Fault where
  /-- Raised by `step` alone, when `run` = HALTED: "the machine takes no step" (R110, R111). Safe (log entry 2). -/
  | halted
  /-- Raised by `step` alone, when `run` = FAULTED: "the machine takes no step" (R110, R111). Safe (log entry 2). -/
  | faulted
  deriving DecidableEq, Repr

/-- Why an instruction has no meaning. -/
inductive Refusal where
  /-- Raised by an arm of `exec` whose instruction has no meaning yet; no arm of this model does. Safe. -/
  | notModelled (mnemonic : String)
  deriving DecidableEq, Repr

/-- The machine right after reset (R36, R210), over the zeroed memory of R64; the program is loaded from outside
(`State.start`; log entry 3). The zeros of `ir`, `fcause`, `finfo` and the empty `out` are the spec's decisions
D10, D12, D16 (log entry 12). -/
def State.reset : State where
  x := #v[0, 0, 0, 0, 0, 0, 0, Config.spReset]
  pc := Config.pcReset
  fl := 0
  ir := 0
  run := .running
  fcause := 0
  finfo := 0
  mem := []
  out := []

end Sys2Proof.Machine
end

