-- ==== Sys2Proof/Machine/Ops.lean ====
section
/-! DEFINITION. The named operations over memory and registers, the stack pointer movement, raising a fault (the one
way the machine takes an exception, R188), and what is done from outside a run: reset and loading. -/

namespace Sys2Proof.Machine

/-! ### Memory as plain storage -/

/-- The content of cell `k` (R51). -/
def Memory.read : Memory → Nat → Byte
  | [], _ => Config.blankCell
  | (a, v) :: rest, k => if k = a then v else Memory.read rest k

/-- Cell `k` becomes `v`, every other cell is unchanged (R51, R54). -/
def Memory.write : Memory → Nat → Byte → Memory
  | [], k, v => if v = Config.blankCell then [] else [(k, v)]
  | (a, w) :: rest, k, v =>
    if k < a then
      if v = Config.blankCell then (a, w) :: rest else (k, v) :: (a, w) :: rest
    else if k = a then
      if v = Config.blankCell then rest else (k, v) :: rest
    else (a, w) :: Memory.write rest k v

/-- The bytes go to consecutive cells from `a` on; a byte that would lie past the last cell is not stored. -/
def Memory.writeBytes (m : Memory) (a : Nat) : List Byte → Memory
  | [] => m
  | b :: bs => Memory.writeBytes (if a < Config.memSize then m.write a b else m) (a + 1) bs

/-! ### Fault kinds -/

/-- The error kinds of the core, each with the information it records (R181 to R184). -/
inductive FaultKind where
  | unknownOpcode (b : Byte)
  /-- Never raised: the ALU operation comes from a closed set of three (R182); kept so that R186 is complete. -/
  | unsupportedALUOperation (info : Int)
  | outOfRangeAddress (a : Int)
  | invalidRegister (b : Byte)
  deriving DecidableEq, Repr

/-- The cause code of a fault kind (R186). -/
def FaultKind.code : FaultKind → BitVec 3
  | .unknownOpcode _ => 1
  | .unsupportedALUOperation _ => 2
  | .outOfRangeAddress _ => 3
  | .invalidRegister _ => 4

/-- The information a fault records, mod 512; -1 is stored as 0x1FF (R33, R186). -/
def FaultKind.info : FaultKind → BitVec 9
  | .unknownOpcode b => b.setWidth 9
  | .unsupportedALUOperation v => BitVec.ofInt 9 v
  | .outOfRangeAddress a => BitVec.ofInt 9 a
  | .invalidRegister b => b.setWidth 9

/-- `raise` (R188): the machine enters FAULTED and records the cause; every other piece of state is kept. -/
def State.raise (e : FaultKind) (s : State) : State :=
  { s with run := .faulted, fcause := e.code, finfo := e.info }

/-- How an instruction that began in state `s` ends: in the state it computed, or, if one of its tests failed, in `s` with
the fault raised, so that no partial effect is visible (R188: faults are precise). -/
def complete (s : State) : Except FaultKind State → Host.Outcome State Fault Refusal
  | .ok t => .next t
  | .error e => .next (s.raise e)

/-! ### Registers -/

/-- `x[i]` (R7, R21). -/
def State.reg (s : State) (i : RegIdx) : Byte := s.x.get i

/-- `x[i] <- v` (R7, R24). -/
def State.setReg (s : State) (i : RegIdx) (v : Byte) : State :=
  { s with x := s.x.set i.val v i.isLt }

/-- The stack pointer, `x[7]` (R22). -/
abbrev State.sp (s : State) : Byte := s.reg Config.spReg

/-- `pc <- t` for an 8-bit target (R160). -/
def State.jumpTo (s : State) (t : Byte) : State := { s with pc := t.setWidth 9 }

/-- `pc <- pc + 1 + n`, not reduced: 256 is held as it is (R114, R26). -/
def State.advance (s : State) (n : Nat) : State :=
  { s with pc := BitVec.ofNat 9 (s.pc.toNat + 1 + n) }

/-- `fl <- v` (R143). -/
def State.setFl (s : State) (v : Byte) : State := { s with fl := v }

/-- `ir <- b` (R31). -/
def State.setIr (s : State) (b : Byte) : State := { s with ir := b }

/-- `run <- r` (R32). -/
def State.setRun (s : State) (r : RunState) : State := { s with run := r }

/-- Memory cell `k` becomes `v` (R54). -/
def State.setCell (s : State) (k : Nat) (v : Byte) : State := { s with mem := s.mem.write k v }

/-- `Emit(v)` (R7, R131). -/
def State.emit (s : State) (v : Byte) : State := { s with out := s.out ++ [v] }

/-! ### Memory access and the stack pointer -/

/-- An integer is an address of the machine (R52). -/
def inRange (a : Int) : Bool := decide (0 ≤ a) && decide (a ≤ 255)

/-- `MemRead(a, 1)` (R7, R52). -/
def State.memRead (s : State) (a : Int) : Except FaultKind Byte :=
  if inRange a then .ok (s.mem.read a.toNat) else .error (.outOfRangeAddress a)

/-- `MemWrite(a, 1, v)` (R7, R52). -/
def State.memWrite (s : State) (a : Int) (v : Byte) : Except FaultKind State :=
  if inRange a then .ok (s.setCell a.toNat v) else .error (.outOfRangeAddress a)

/-- The +1 or -1 that a stack instruction applies to register 7: it faults, with the value it would have given, when that
leaves 0..255 (R145, R153). -/
def State.moveSp (s : State) (d : Int) : Except FaultKind State :=
  let v := (s.sp.toNat : Int) + d
  if inRange v then .ok (s.setReg Config.spReg (BitVec.ofInt 8 v)) else .error (.outOfRangeAddress v)

/-! ### Reset and loading, from outside the machine -/

/-- Reset (R210): the core state of R36; memory is not written. -/
def State.applyReset (s : State) : State := { State.reset with mem := s.mem }

/-- The memory the loader leaves: all cells zero, then the image bytes from address 0 (R64, R212). -/
def Memory.ofImage (img : List Byte) : Memory := Memory.writeBytes [] 0 img

/-- The state in which a run of an image starts; an image of more than 256 bytes cannot be loaded (R212). -/
def State.start (img : List Byte) : Option State :=
  if img.length ≤ Config.memSize then some { State.reset with mem := Memory.ofImage img } else none

end Sys2Proof.Machine
end

