-- ==== Sys2Proof/Machine/Flags.lean ====
section
/-! DEFINITION. The flags register: its bits, the value a comparison gives it, and the one condition a jump can test
(R28, R143, R160). -/

namespace Sys2Proof.Machine

/-- `fl` with EQUAL alone set: bit 0 (R28). -/
def flEqual : Byte := 0x01

/-- `fl` with GREATER_THAN alone set: bit 1 (R28). -/
def flGreater : Byte := 0x02

/-- `fl` with LESS_THAN alone set: bit 2 (R28). -/
def flLess : Byte := 0x04

/-- What CMP writes into `fl`, the operands taken as unsigned numbers (R143). -/
def cmpFlags (u v : Byte) : Byte :=
  if u.toNat > v.toNat then flGreater else if u.toNat < v.toNat then flLess else flEqual

/-- `fl[0]`, the only bit a jump reads (R29, R164, R165). -/
def State.equalFlag (s : State) : Bool := s.fl.getLsbD 0

end Sys2Proof.Machine
end

