-- ==== Sys2Proof/Machine/Operands.lean ====
section
/-! DEFINITION. The operand forms of R82: each form checks its register operands, operand 0 first, before the instruction has
any effect (R83), and hands the indices to the instruction's own rule. -/

namespace Sys2Proof.Machine

/-- `reg(b)` (R7, R83). -/
def reg (b : Byte) : Except FaultKind RegIdx :=
  match regIndex? b with
  | some i => .ok i
  | none => .error (.invalidRegister b)

/-- Format Z: no operand. -/
def formZ (s : State) (rule : Except FaultKind State) : Host.Outcome State Fault Refusal :=
  complete s rule

/-- Format R: one register operand. -/
def formR (o0 : Byte) (s : State) (rule : RegIdx → Except FaultKind State) :
    Host.Outcome State Fault Refusal :=
  complete s (do rule (← reg o0))

/-- Format RR: two register operands. -/
def formRR (o0 o1 : Byte) (s : State) (rule : RegIdx → RegIdx → Except FaultKind State) :
    Host.Outcome State Fault Refusal :=
  complete s (do
    let a ← reg o0
    let b ← reg o1
    rule a b)

/-- Format RI: a register operand and an immediate byte, used as it stands (R84). -/
def formRI (o0 imm : Byte) (s : State) (rule : RegIdx → Byte → Except FaultKind State) :
    Host.Outcome State Fault Refusal :=
  complete s (do rule (← reg o0) imm)

end Sys2Proof.Machine
end

