-- ==== Sys2Proof/Machine/Alu.lean ====
section
/-! DEFINITION. The ALU and its three instructions: ADD, MUL, CMP (42_alu.md). -/

namespace Sys2Proof.Machine

/-- The closed set of ALU operations (R140). -/
inductive AluOp where
  | add
  | mul
  | cmp
  deriving DecidableEq, Repr

/-- `apply(op, regA, regB)` (R140): ADD and MUL write `x[a]` mod 256 (R141, R142, R144), CMP writes `fl` (R143). -/
def State.alu (s : State) (op : AluOp) (a b : RegIdx) : State :=
  match op with
  | .add => s.setReg a (BitVec.ofNat 8 ((s.reg a).toNat + (s.reg b).toNat))
  | .mul => s.setReg a (BitVec.ofNat 8 ((s.reg a).toNat * (s.reg b).toNat))
  | .cmp => s.setFl (cmpFlags (s.reg a) (s.reg b))

/-- ADD a, b (R141). -/
def execAdd (o0 o1 : Byte) (s : State) : Host.Outcome State Fault Refusal :=
  formRR o0 o1 s fun a b => .ok ((s.alu .add a b).advance 2)

/-- MUL a, b (R142). -/
def execMul (o0 o1 : Byte) (s : State) : Host.Outcome State Fault Refusal :=
  formRR o0 o1 s fun a b => .ok ((s.alu .mul a b).advance 2)

/-- CMP a, b (R143). -/
def execCmp (o0 o1 : Byte) (s : State) : Host.Outcome State Fault Refusal :=
  formRR o0 o1 s fun a b => .ok ((s.alu .cmp a b).advance 2)

end Sys2Proof.Machine
end

