-- ==== Sys2Proof/Machine/Stack.lean ====
section
/-! DEFINITION. The stack instructions PUSH and POP (43_stack.md). The statements act in their written order on the one
register file, so register 7 as the operand needs no case of its own (the spec's decision D13, log entry 9); a test that
fails discards every write before it (`complete`). -/

namespace Sys2Proof.Machine

/-- A push (R150): the stack pointer is decremented, then the byte `v` gives from that state is stored at the new stack
pointer. -/
def State.push (s : State) (v : State → Byte) : Except FaultKind State := do
  let t ← s.moveSp (-1)
  t.memWrite t.sp.toNat (v t)

/-- PUSH r (R151): register r is read after the decrement. -/
def execPush (o0 : Byte) (s : State) : Host.Outcome State Fault Refusal :=
  formR o0 s fun r => do
    let t ← s.push fun u => u.reg r
    .ok (t.advance 1)

/-- POP r (R152): register r is loaded from the top of the stack, then the stack pointer is incremented. -/
def execPop (o0 : Byte) (s : State) : Host.Outcome State Fault Refusal :=
  formR o0 s fun r => do
    let v ← s.memRead s.sp.toNat
    let t ← (s.setReg r v).moveSp 1
    .ok (t.advance 1)

end Sys2Proof.Machine
end

