-- ==== Sys2Proof/Machine/ControlTransfer.lean ====
section
/-! DEFINITION. The control transfer instructions CALL, RET, JMP, JEQ, JNE (44_control_flow.md). A write of `pc` by one of
them gets no further advance (R114). -/

namespace Sys2Proof.Machine

/-- The return address of a CALL, `pc + 2`: it must fit a memory cell (R161, R145; the spec's decision D7, log entry 7). -/
def State.returnAddress (s : State) : Except FaultKind Byte :=
  if s.pc.toNat + 2 ≤ 255 then .ok (BitVec.ofNat 8 (s.pc.toNat + 2)) else .error (.outOfRangeAddress 256)

/-- CALL r (R161): the return address is pushed; the target register is read after the push. -/
def execCall (o0 : Byte) (s : State) : Host.Outcome State Fault Refusal :=
  formR o0 s fun r => do
    let ra ← s.returnAddress
    let t ← s.push fun _ => ra
    .ok (t.jumpTo (t.reg r))

/-- RET (R162): the top of the stack goes into `pc`. -/
def execRet (s : State) : Host.Outcome State Fault Refusal :=
  formZ s do
    let v ← s.memRead s.sp.toNat
    let t ← s.moveSp 1
    .ok (t.jumpTo v)

/-- JMP r (R163). -/
def execJmp (o0 : Byte) (s : State) : Host.Outcome State Fault Refusal :=
  formR o0 s fun r => .ok (s.jumpTo (s.reg r))

/-- JEQ r (R164): taken when the EQUAL flag is set. -/
def execJeq (o0 : Byte) (s : State) : Host.Outcome State Fault Refusal :=
  formR o0 s fun r => .ok (if s.equalFlag then s.jumpTo (s.reg r) else s.advance 1)

/-- JNE r (R165): taken when the EQUAL flag is clear. -/
def execJne (o0 : Byte) (s : State) : Host.Outcome State Fault Refusal :=
  formR o0 s fun r => .ok (if s.equalFlag then s.advance 1 else s.jumpTo (s.reg r))

end Sys2Proof.Machine
end

