-- ==== Sys2Proof/Machine/DataMovement.lean ====
section
/-! DEFINITION. Data movement and output: LDI, PRN (41_data_movement.md). -/

namespace Sys2Proof.Machine

/-- LDI r, imm (R130): `x[r] <- imm`. -/
def execLdi (o0 imm : Byte) (s : State) : Host.Outcome State Fault Refusal :=
  formRI o0 imm s fun r v => .ok ((s.setReg r v).advance 2)

/-- PRN r (R131): `Emit(x[r])`. -/
def execPrn (o0 : Byte) (s : State) : Host.Outcome State Fault Refusal :=
  formR o0 s fun r => .ok ((s.emit (s.reg r)).advance 1)

end Sys2Proof.Machine
end

