-- ==== Sys2Proof/Machine/System.lean ====
section
/-! DEFINITION. HLT, the instruction that acts on the execution state (40_execution_cycle.md section 2). -/

namespace Sys2Proof.Machine

/-- HLT (R115): `run <- HALTED`; `pc` advances by 1 (the spec's decision D5, log entry 6). -/
def execHlt (s : State) : Host.Outcome State Fault Refusal :=
  formZ s (.ok ((s.setRun .halted).advance 0))

end Sys2Proof.Machine
end

