-- ==== Sys2Proof/Machine/Fetch.lean ====
section
/-! DEFINITION. Fetching and decoding the next instruction (40_execution_cycle.md R112, R113). -/

namespace Sys2Proof.Machine

/-- The cells from address `a` up to the last one, at most as many as the longest instruction has bytes: what the decoder can
look at from there (R80, R113). -/
def State.bytesAt (s : State) (a : Nat) : List Byte :=
  (List.range' a (min 3 (Config.memSize - a))).map s.mem.read

/-- Fetch (R112): the byte at `pc` goes into `ir`. -/
def State.fetch (s : State) : Except FaultKind State := do
  let b ← s.memRead s.pc.toNat
  .ok (s.setIr b)

/-- The fault a rejected instruction raises; the first byte missing is always at address 256 (R113, R181, R183, R184). -/
def FaultKind.ofDecodeError : DecodeError → FaultKind
  | .unknownOpcode b => .unknownOpcode b
  | .missingByte => .outOfRangeAddress 256
  | .invalidRegister b => .invalidRegister b

/-- Decode, operand fetch and register check of the instruction at `pc` (R113). -/
def State.decodeNext (s : State) : Except FaultKind Instr :=
  match decode (s.bytesAt s.pc.toNat) with
  | .ok (i, _) => .ok i
  | .error e => .error (.ofDecodeError e)

end Sys2Proof.Machine
end

