-- ==== Sys2Proof/Machine/Step.lean ====
section
/-! DEFINITION. The step: one whole instruction (R111), and the placing of an instruction where the next step fetches it. -/

namespace Sys2Proof.Machine

/-- One step (R111): a step exists only when `run` = RUNNING; a fault of fetch or decode is raised as R188 says, `ir`
keeping the fetched byte once the fetch has succeeded. -/
def step (s : State) : Host.Outcome State Fault Refusal :=
  match s.run with
  | .halted => .fault .halted
  | .faulted => .fault .faulted
  | .running =>
    match s.fetch with
    | .error e => .next (s.raise e)
    | .ok t =>
      match t.decodeNext with
      | .error e => .next (t.raise e)
      | .ok i => exec i t

/-- The state with the instruction of a table word stored at `pc`, where the next step fetches it (log entry 4). -/
def State.withFetchWord (s : State) (nbits w : Nat) : State :=
  { s with mem := s.mem.writeBytes s.pc.toNat (wordBytes nbits w) }

end Sys2Proof.Machine
end

