-- ==== Sys2Proof/Safety.lean ====
section
/-! DEFINITION. The terms claims use: how a run ends, the invariant of the machine, the bytes of an instruction in memory,
and what an instruction leaves unchanged. -/

namespace Sys2Proof.Machine

/-! ### The end of a run (R116) -/

/-- The run ended cleanly: HALTED and no fault (R116). -/
abbrev State.EndedCleanly (s : State) : Prop := s.run = .halted ∧ s.fcause = 0

/-- The run ended in a fault (R116). -/
abbrev State.EndedInFault (s : State) : Prop := s.run = .faulted

/-! ### The invariant -/

/-- `fl` is 0x00, or exactly one flag bit is set (R30). -/
abbrev FlagsLegal (f : Byte) : Prop := f = 0x00 ∨ f = flEqual ∨ f = flGreater ∨ f = flLess

/-- The fault registers agree with `run` (R33, R182, R186): no cause before a fault, and after one a cause that can be raised. -/
abbrev State.FaultRegistersAgree (s : State) : Prop :=
  (s.run ≠ .faulted → s.fcause = 0 ∧ s.finfo = 0) ∧
  (s.run = .faulted → s.fcause = 1 ∨ s.fcause = 3 ∨ s.fcause = 4)

/-- What holds in every reachable state: the program counter is at most 256 (R26), the flags are legal (R30), the memory is in
its canonical form, the fault registers agree with `run` (R33). -/
abbrev State.Inv (s : State) : Prop :=
  s.pc.toNat ≤ 256 ∧ FlagsLegal s.fl ∧ s.mem.wf ∧ s.FaultRegistersAgree

/-! ### What is left unchanged -/

/-- Every general register outside the list holds what it held. -/
def SameRegsExcept (l : List RegIdx) (s t : State) : Prop := ∀ i : RegIdx, i ∉ l → t.reg i = s.reg i

/-- Every address reads as it did. -/
def SameMemory (s t : State) : Prop := ∀ a : Nat, t.mem.read a = s.mem.read a

/-- Every address but `k` reads as it did. -/
def SameMemoryExcept (k : Nat) (s t : State) : Prop := ∀ a : Nat, a ≠ k → t.mem.read a = s.mem.read a

/-- The fault registers and the instruction register hold what they held. -/
def SameFaultRegisters (s t : State) : Prop := t.fcause = s.fcause ∧ t.finfo = s.finfo ∧ t.ir = s.ir

/-- The execution state, the fault registers and the instruction register hold what they held. -/
def SameControl (s t : State) : Prop := t.run = s.run ∧ SameFaultRegisters s t

/-- From an address of the memory, where alone an instruction can be fetched, the program counter moves on by `k`; the sum is
not reduced (R114, R26). -/
def PcAdvances (k : Nat) (s t : State) : Prop := s.pc.toNat < 256 → t.pc.toNat = s.pc.toNat + k

/-! ### Fetching -/

/-- The byte at the program counter. -/
def State.byteAtPc (s : State) : Byte := s.mem.read s.pc.toNat

/-- The machine is RUNNING, its program counter addresses a memory cell, and that cell holds `b` (R112: the fetch succeeds
and reads `b`). -/
def State.Fetches (s : State) (b : Byte) : Prop :=
  s.run = .running ∧ s.pc.toNat < 256 ∧ s.byteAtPc = b

/-! ### Faults -/

/-- What a fault of cause code `c` with information `v` leaves (R188): FAULTED, the cause recorded, and everything else but
`ir` as it was. -/
def FaultedWith (c : BitVec 3) (v : BitVec 9) (s t : State) : Prop :=
  t.run = .faulted ∧ t.fcause = c ∧ t.finfo = v ∧
    SameRegsExcept [] s t ∧ t.pc = s.pc ∧ t.fl = s.fl ∧ SameMemory s t ∧ t.out = s.out

/-- The instruction raises the fault, `ir` as it was (the fetch has written it). -/
def ExecFaults (i : Instr) (c : BitVec 3) (v : BitVec 9) (s : State) : Prop :=
  ∃ t, exec i s = .next t ∧ FaultedWith c v s t ∧ t.ir = s.ir

/-- The step raises the fault and leaves `b` in `ir`. -/
def StepFaults (c : BitVec 3) (v : BitVec 9) (b : Byte) (s : State) : Prop :=
  ∃ t, step s = .next t ∧ FaultedWith c v s t ∧ t.ir = b

/-- An instruction of instruction byte `b` with `n` operand bytes, the last of which would lie beyond address 255, raises
OutOfRangeAddress(256), whatever the operand bytes in range are (R113, R183, R187). -/
def OperandFetchFaults (b : Byte) (n : Nat) : Prop :=
  ∀ s : State, s.Fetches b → 255 < s.pc.toNat + n → StepFaults 3 0x100 b s

/-- The 13 legal first bytes, as R89 lists them. -/
def legalFirstBytes : List Byte :=
  [0x01, 0x11, 0x45, 0x46, 0x47, 0x50, 0x54, 0x55, 0x56, 0x82, 0xA0, 0xA2, 0xA7]

end Sys2Proof.Machine
end

