-- ==== Sys2Proof/Certificates/Slice0/Obligations.lean ====
section
/-! DEFINITION. The statements for the provers, from the numbered rules of the spec. FAULTED, `fcause` and `finfo` are the spec's
own decisions D8 and D10, the instruction bytes its decision D1, the register check its decision D3: a statement that needs one
of them says it of the spec's machine as the spec's rules give it. -/

open Sys2Proof Sys2Proof.Machine

/-! ### Encoding -/

/-- One word of each instruction, written out from R82 and R85 (instruction bytes: the spec's decision D1, log entry 1). -/
def Obligations.SampleWordsDecode : Prop :=
  decode [0b00000001] = .ok (.hlt, []) ∧
  decode [0b10000010, 0b00000011, 0b11111111] = .ok (.ldi 3 255, []) ∧
  decode [0b01000111, 0b00000111] = .ok (.prn 7, []) ∧
  decode [0b10100000, 0b00000001, 0b00000010] = .ok (.add 1 2, []) ∧
  decode [0b10100010, 0b00000110, 0b00000000] = .ok (.mul 6 0, []) ∧
  decode [0b01000101, 0b00000100] = .ok (.push 4, []) ∧
  decode [0b01000110, 0b00000101] = .ok (.pop 5, []) ∧
  decode [0b01010000, 0b00000001] = .ok (.call 1, []) ∧
  decode [0b00010001] = .ok (.ret, []) ∧
  decode [0b10100111, 0b00000010, 0b00000011] = .ok (.cmp 2 3, []) ∧
  decode [0b01010100, 0b00000011] = .ok (.jmp 3, []) ∧
  decode [0b01010101, 0b00000010] = .ok (.jeq 2, []) ∧
  decode [0b01010110, 0b00000000] = .ok (.jne 0, [])

/-- Decoding the encoding of a well-formed instruction gives it back, whatever bytes follow (R82 to R86). -/
def Obligations.DecodeOfEncode : Prop :=
  ∀ (i : Instr) (rest : List Byte), i.WellFormed → decode (encode i ++ rest) = .ok (i, rest)

/-- What the decoder accepts is a well-formed instruction, and the bytes it read are exactly that instruction's encoding
(R83, R85, R86). -/
def Obligations.EncodeOfDecode : Prop :=
  ∀ (bs rest : List Byte) (i : Instr), decode bs = .ok (i, rest) → i.WellFormed ∧ encode i ++ rest = bs

/-- A first byte is rejected as unknown exactly when it is none of the 13 of R89, whatever follows it (R86, R87; the spec's
decision D2). -/
def Obligations.UnlistedBytesAreUnknown : Prop :=
  ∀ (b : Byte) (rest : List Byte), decode (b :: rest) = .error (.unknownOpcode b) ↔ b ∉ legalFirstBytes

/-- R80: one instruction byte, whose top two bits are the number of operand bytes that follow (0, 1 or 2); the remaining six bits
identify the operation. -/
def Obligations.TopTwoBitsCountOperands : Prop :=
  (∀ i : Instr, ∃ b operands, encode i = b :: operands ∧ operands.length = b.toNat / 64 ∧ operands.length ≤ 2) ∧
  (∀ (i j : Instr) (b c : Byte), (encode i).head? = some b → (encode j).head? = some c →
    b.toNat % 64 = c.toNat % 64 → i.opcode = j.opcode)

/-! ### The step -/

/-- A RUNNING machine whose bytes at `pc` decode to an instruction runs exactly that instruction, `ir` holding its first byte
(R111; what the step adds around `exec` is the write of `ir`). -/
def Obligations.StepRunsDecodedInstruction : Prop :=
  ∀ (s : State) (i : Instr) (rest : List Byte), s.run = .running → s.pc.toNat < 256 →
    decode (s.bytesAt s.pc.toNat) = .ok (i, rest) → step s = exec i (s.setIr s.byteAtPc)

/-- A RUNNING machine with the encoding of a well-formed instruction in its memory at `pc`, up to the last cell, runs that
instruction (R56, R111, R113). -/
def Obligations.StepRunsEncodedInstruction : Prop :=
  ∀ (s : State) (i : Instr), s.run = .running → i.WellFormed → s.pc.toNat + i.length ≤ 256 →
    (∀ k b, (encode i)[k]? = some b → s.mem.read (s.pc.toNat + k) = b) →
    step s = exec i (s.setIr i.opcode.byte)

/-- A fetch with `pc` above 255 ends the step with OutOfRangeAddress(pc), `ir` and everything else unchanged; otherwise `ir` receives
the byte at `pc`. At `pc` = 256 the first clause is R112's own; at 257 to 511, which no run reaches, `finfo` = `pc` is the model's
choice (log entry 11, DESIGN CHOICE), after R7 and R26. -/
def Obligations.FetchReadsTheByteAtPc : Prop :=
  (∀ s : State, s.run = .running → 255 < s.pc.toNat → StepFaults 3 s.pc s.ir s) ∧
  (∀ s : State, s.run = .running → s.pc.toNat ≤ 255 → ∃ t, step s = .next t ∧ t.ir = s.mem.read s.pc.toNat)

/-- R181: a fetched byte that is none of the 13 raises UnknownOpcode, with `fcause` = 1, `finfo` = the byte, also in `ir`, and
`pc` unchanged; also in the last cell, and with any count field. -/
def Obligations.UnknownOpcodeFaults : Prop :=
  ∀ (s : State) (b : Byte), s.Fetches b → b ∉ legalFirstBytes → StepFaults 1 (b.setWidth 9) b s

/-- A register operand byte above 7 raises InvalidRegister with that byte, operand 0 before operand 1, also when the register
would not be read (JEQ, JNE); LDI's immediate is not checked (R83, R184: the spec's decision D3; order R187: D9). -/
def Obligations.RegisterOperandAboveSevenFaults : Prop :=
  ∀ (s : State) (b : Byte), s.Fetches b →
    (b ∈ ([0x47, 0x45, 0x46, 0x50, 0x54, 0x55, 0x56] : List Byte) → s.pc.toNat + 1 ≤ 255 →
      7 < (s.mem.read (s.pc.toNat + 1)).toNat →
      StepFaults 4 ((s.mem.read (s.pc.toNat + 1)).setWidth 9) b s) ∧
    (b ∈ ([0x82, 0xA0, 0xA2, 0xA7] : List Byte) → s.pc.toNat + 2 ≤ 255 →
      7 < (s.mem.read (s.pc.toNat + 1)).toNat →
      StepFaults 4 ((s.mem.read (s.pc.toNat + 1)).setWidth 9) b s) ∧
    (b ∈ ([0xA0, 0xA2, 0xA7] : List Byte) → s.pc.toNat + 2 ≤ 255 →
      (s.mem.read (s.pc.toNat + 1)).toNat ≤ 7 → 7 < (s.mem.read (s.pc.toNat + 2)).toNat →
      StepFaults 4 ((s.mem.read (s.pc.toNat + 2)).setWidth 9) b s)

/-- A step that does not fault advances `pc` by 1 plus the operand count in the top two bits of the instruction byte, the sum not reduced,
unless the instruction writes `pc` (R114): CALL, JMP, JEQ taken, JNE taken put the value of their register there, RET the byte on the
stack, with no further advance (R160 to R165). For CALL with register 7 that is the value as it stands after the push: the spec's
decision D13 (log entry 9). -/
def Obligations.PcAdvancesUnlessWritten : Prop :=
  ∀ (s t : State) (b : Byte), s.Fetches b → step s = .next t → t.run ≠ .faulted →
    if b = 0x50 ∨ b = 0x54 ∨ (b = 0x55 ∧ s.fl.getLsbD 0 = true) ∨ (b = 0x56 ∧ s.fl.getLsbD 0 = false) then
      ∃ r : RegIdx, s.mem.read (s.pc.toNat + 1) = regByte r ∧ t.pc.toNat = (t.reg r).toNat
    else if b = 0x11 then
      t.pc.toNat = (s.mem.read (s.reg 7).toNat).toNat
    else
      t.pc.toNat = s.pc.toNat + 1 + b.toNat / 64

/-- HALTED and FAULTED are absorbing: no step is taken from them (R110, R111: the spec's decision D21; that the outcome is called
`halted` or `faulted` is the model's choice, log entry 2). -/
def Obligations.NoStepOnceStopped : Prop :=
  ∀ s : State, (s.run = .halted → step s = .fault .halted) ∧ (s.run = .faulted → step s = .fault .faulted)

/-- A RUNNING machine always has a step: no memory content, no program counter, no register makes it stop without one (R11). -/
def Obligations.RunningMachineAlwaysSteps : Prop :=
  ∀ s : State, s.run = .running → ∃ t, step s = .next t

/-- A step ends in HALTED exactly when the byte at `pc` is HLT (R32, R110, R115). -/
def Obligations.OnlyHltHalts : Prop :=
  ∀ s t : State, step s = .next t → (t.run = .halted ↔ s.Fetches 0x01)

/-- Faults are precise: a step that ends in FAULTED changes nothing but `ir`, `run`, `fcause`, `finfo`; `ir` holds the fetched byte
if the fetch succeeded; the cause is one the machine can raise, never UnsupportedALUOperation (R182, R188: the spec's decisions
D8, D10, D20). -/
def Obligations.FaultsArePrecise : Prop :=
  ∀ s t : State, step s = .next t → t.run = .faulted →
    FaultedWith t.fcause t.finfo s t ∧
    (t.fcause = 1 ∨ t.fcause = 3 ∨ t.fcause = 4) ∧
    t.ir = (if s.pc.toNat < 256 then s.byteAtPc else s.ir)

/-! ### The instructions -/

/-- HLT sets `run` to HALTED and changes nothing else; `pc` advances by 1 (R115: the advance is the spec's decision D5, log
entry 6). -/
def Obligations.HltHalts : Prop :=
  (∀ s : State, ∃ t, exec .hlt s = .next t ∧ t.run = .halted ∧ PcAdvances 1 s t ∧
    SameRegsExcept [] s t ∧ t.fl = s.fl ∧ SameMemory s t ∧ t.out = s.out ∧ SameFaultRegisters s t) ∧
  encode .hlt = [0x01]

/-- R130: LDI writes the immediate into register r (register 7 too) and advances `pc` by 3; its faults; its bytes; and a PRN of r
then outputs exactly the immediate. -/
def Obligations.LdiLoadsImmediate : Prop :=
  (∀ (r : RegIdx) (imm : Byte) (s : State), ∃ t, exec (.ldi (regByte r) imm) s = .next t ∧
    t.reg r = imm ∧ PcAdvances 3 s t ∧
    SameRegsExcept [r] s t ∧ t.fl = s.fl ∧ SameMemory s t ∧ t.out = s.out ∧ SameControl s t ∧
    ∃ u, exec (.prn (regByte r)) t = .next u ∧ u.out = s.out ++ [imm]) ∧
  (∀ (o0 imm : Byte) (s : State), 7 < o0.toNat → ExecFaults (.ldi o0 imm) 4 (o0.setWidth 9) s) ∧
  OperandFetchFaults 0x82 2 ∧
  ∀ o0 imm : Byte, encode (.ldi o0 imm) = [0x82, o0, imm]

/-- R131: PRN appends the register's 8-bit value to the output and advances `pc` by 2; its faults; its bytes. -/
def Obligations.PrnEmitsRegister : Prop :=
  (∀ (r : RegIdx) (s : State), ∃ t, exec (.prn (regByte r)) s = .next t ∧
    t.out = s.out ++ [s.reg r] ∧ PcAdvances 2 s t ∧
    SameRegsExcept [] s t ∧ t.fl = s.fl ∧ SameMemory s t ∧ SameControl s t) ∧
  (∀ (o0 : Byte) (s : State), 7 < o0.toNat → ExecFaults (.prn o0) 4 (o0.setWidth 9) s) ∧
  OperandFetchFaults 0x47 1 ∧
  ∀ o0 : Byte, encode (.prn o0) = [0x47, o0]

/-- R141: ADD writes the sum mod 256 into register a (b may be a) and leaves the flags; `pc` advances by 3; its faults; its bytes. -/
def Obligations.AddWritesSumMod256 : Prop :=
  (∀ (a b : RegIdx) (s : State), ∃ t, exec (.add (regByte a) (regByte b)) s = .next t ∧
    (t.reg a).toNat = ((s.reg a).toNat + (s.reg b).toNat) % 256 ∧ PcAdvances 3 s t ∧
    SameRegsExcept [a] s t ∧ t.fl = s.fl ∧ SameMemory s t ∧ t.out = s.out ∧ SameControl s t) ∧
  (∀ (o0 o1 : Byte) (s : State), 7 < o0.toNat → ExecFaults (.add o0 o1) 4 (o0.setWidth 9) s) ∧
  (∀ (a : RegIdx) (o1 : Byte) (s : State), 7 < o1.toNat → ExecFaults (.add (regByte a) o1) 4 (o1.setWidth 9) s) ∧
  OperandFetchFaults 0xA0 2 ∧
  ∀ o0 o1 : Byte, encode (.add o0 o1) = [0xA0, o0, o1]

/-- R142: MUL writes the product mod 256 into register a (b may be a) and leaves the flags; `pc` advances by 3; its faults; its
bytes. -/
def Obligations.MulWritesProductMod256 : Prop :=
  (∀ (a b : RegIdx) (s : State), ∃ t, exec (.mul (regByte a) (regByte b)) s = .next t ∧
    (t.reg a).toNat = ((s.reg a).toNat * (s.reg b).toNat) % 256 ∧ PcAdvances 3 s t ∧
    SameRegsExcept [a] s t ∧ t.fl = s.fl ∧ SameMemory s t ∧ t.out = s.out ∧ SameControl s t) ∧
  (∀ (o0 o1 : Byte) (s : State), 7 < o0.toNat → ExecFaults (.mul o0 o1) 4 (o0.setWidth 9) s) ∧
  (∀ (a : RegIdx) (o1 : Byte) (s : State), 7 < o1.toNat → ExecFaults (.mul (regByte a) o1) 4 (o1.setWidth 9) s) ∧
  OperandFetchFaults 0xA2 2 ∧
  ∀ o0 o1 : Byte, encode (.mul o0 o1) = [0xA2, o0, o1]

/-- R143: CMP sets exactly one flag by the unsigned comparison and writes nothing else but `pc`; its faults; its bytes; and after it
JEQ is taken and JNE is not exactly when the registers were equal. -/
def Obligations.CmpSetsExactlyOneFlag : Prop :=
  (∀ (a b : RegIdx) (s : State), ∃ t, exec (.cmp (regByte a) (regByte b)) s = .next t ∧
    t.fl = (if (s.reg a).toNat > (s.reg b).toNat then 0x02
            else if (s.reg a).toNat < (s.reg b).toNat then 0x04 else 0x01) ∧
    PcAdvances 3 s t ∧
    SameRegsExcept [] s t ∧ SameMemory s t ∧ t.out = s.out ∧ SameControl s t ∧
    ∀ r : RegIdx, ∃ u v, exec (.jeq (regByte r)) t = .next u ∧ exec (.jne (regByte r)) t = .next v ∧
      if s.reg a = s.reg b then u.pc.toNat = (t.reg r).toNat ∧ PcAdvances 2 t v
      else PcAdvances 2 t u ∧ v.pc.toNat = (t.reg r).toNat) ∧
  (∀ (o0 o1 : Byte) (s : State), 7 < o0.toNat → ExecFaults (.cmp o0 o1) 4 (o0.setWidth 9) s) ∧
  (∀ (a : RegIdx) (o1 : Byte) (s : State), 7 < o1.toNat → ExecFaults (.cmp (regByte a) o1) 4 (o1.setWidth 9) s) ∧
  OperandFetchFaults 0xA7 2 ∧
  ∀ o0 o1 : Byte, encode (.cmp o0 o1) = [0xA7, o0, o1]

/-- PUSH decrements the stack pointer, then stores register r, as it stands after the decrement, at the new stack pointer; a stack
pointer of 0 raises OutOfRangeAddress(-1) (the spec's decision D6, log entry 7); its other faults; its bytes (R151). With register 7
as the operand, that the decremented value is stored is the spec's decision D13 (log entry 9). The value stored is read back from a
memory in canonical form. -/
def Obligations.PushStoresBelowStackPointer : Prop :=
  (∀ (r : RegIdx) (s : State), (s.reg 7).toNat ≠ 0 → ∃ t, exec (.push (regByte r)) s = .next t ∧
    (t.reg 7).toNat = (s.reg 7).toNat - 1 ∧
    (s.mem.wf → t.mem.read ((s.reg 7).toNat - 1) = if r = 7 then t.reg 7 else s.reg r) ∧
    PcAdvances 2 s t ∧
    SameRegsExcept [7] s t ∧ t.fl = s.fl ∧ SameMemoryExcept ((s.reg 7).toNat - 1) s t ∧ t.out = s.out ∧
    SameControl s t) ∧
  (∀ (r : RegIdx) (s : State), (s.reg 7).toNat = 0 → ExecFaults (.push (regByte r)) 3 0x1FF s) ∧
  (∀ (o0 : Byte) (s : State), 7 < o0.toNat → ExecFaults (.push o0) 4 (o0.setWidth 9) s) ∧
  OperandFetchFaults 0x45 1 ∧
  ∀ o0 : Byte, encode (.push o0) = [0x45, o0]

/-- POP loads register r from the byte at the stack pointer, then increments the stack pointer; an increment to 256 raises
OutOfRangeAddress(256) (the spec's decision D6, log entry 7); its other faults; its bytes; and a PUSH followed by a POP moves the
value and leaves the stack pointer (R152). With r = 7 the increment acts on the loaded byte, in both clauses about it: the spec's
decision D13 (log entry 9). That register r is not written on the fault is its decision D8 (log entry 8). -/
def Obligations.PopLoadsFromStackPointer : Prop :=
  (∀ (r : RegIdx) (s : State), r ≠ 7 → (s.reg 7).toNat ≠ 255 → ∃ t, exec (.pop (regByte r)) s = .next t ∧
    t.reg r = s.mem.read (s.reg 7).toNat ∧ (t.reg 7).toNat = (s.reg 7).toNat + 1 ∧ PcAdvances 2 s t ∧
    SameRegsExcept [r, 7] s t ∧ t.fl = s.fl ∧ SameMemory s t ∧ t.out = s.out ∧ SameControl s t) ∧
  (∀ s : State, (s.mem.read (s.reg 7).toNat).toNat ≠ 255 → ∃ t, exec (.pop (regByte 7)) s = .next t ∧
    (t.reg 7).toNat = (s.mem.read (s.reg 7).toNat).toNat + 1 ∧ PcAdvances 2 s t ∧
    SameRegsExcept [7] s t ∧ t.fl = s.fl ∧ SameMemory s t ∧ t.out = s.out ∧ SameControl s t) ∧
  (∀ (r : RegIdx) (s : State), r ≠ 7 → (s.reg 7).toNat = 255 → ExecFaults (.pop (regByte r)) 3 0x100 s) ∧
  (∀ s : State, (s.mem.read (s.reg 7).toNat).toNat = 255 → ExecFaults (.pop (regByte 7)) 3 0x100 s) ∧
  (∀ (o0 : Byte) (s : State), 7 < o0.toNat → ExecFaults (.pop o0) 4 (o0.setWidth 9) s) ∧
  OperandFetchFaults 0x46 1 ∧
  (∀ o0 : Byte, encode (.pop o0) = [0x46, o0]) ∧
  ∀ (r r' : RegIdx) (s : State), r ≠ 7 → r' ≠ 7 → s.mem.wf → (s.reg 7).toNat ≠ 0 →
    ∃ t u, exec (.push (regByte r)) s = .next t ∧ exec (.pop (regByte r')) t = .next u ∧
      u.reg r' = s.reg r ∧ u.reg 7 = s.reg 7

/-- CALL pushes `pc` + 2 and jumps to the address in register r; a return address above 255 raises OutOfRangeAddress(256) before the
stack pointer is looked at, a stack pointer of 0 raises OutOfRangeAddress(-1) (the spec's decision D6, log entry 7); its other faults;
its bytes (R161). The fault at `pc` = 254 is the spec's decision D7 (log entry 7); the same fault for `pc` above 254, where no run
executes a CALL, is the model's choice (log entry 11, DESIGN CHOICE); that register 7 as the operand is read after the push is the
spec's decision D13 (log entry 9). -/
def Obligations.CallPushesReturnAddressAndJumps : Prop :=
  (∀ (r : RegIdx) (s : State), s.pc.toNat ≤ 253 → (s.reg 7).toNat ≠ 0 →
    ∃ t, exec (.call (regByte r)) s = .next t ∧
    (t.reg 7).toNat = (s.reg 7).toNat - 1 ∧
    (s.mem.wf → (t.mem.read ((s.reg 7).toNat - 1)).toNat = s.pc.toNat + 2) ∧
    t.pc.toNat = (if r = 7 then (s.reg 7).toNat - 1 else (s.reg r).toNat) ∧
    SameRegsExcept [7] s t ∧ t.fl = s.fl ∧ SameMemoryExcept ((s.reg 7).toNat - 1) s t ∧ t.out = s.out ∧
    SameControl s t) ∧
  (∀ (r : RegIdx) (s : State), 253 < s.pc.toNat → ExecFaults (.call (regByte r)) 3 0x100 s) ∧
  (∀ (r : RegIdx) (s : State), s.pc.toNat ≤ 253 → (s.reg 7).toNat = 0 →
    ExecFaults (.call (regByte r)) 3 0x1FF s) ∧
  (∀ (o0 : Byte) (s : State), 7 < o0.toNat → ExecFaults (.call o0) 4 (o0.setWidth 9) s) ∧
  OperandFetchFaults 0x50 1 ∧
  ∀ o0 : Byte, encode (.call o0) = [0x50, o0]

/-- R162: RET pops one byte from the stack into `pc`; a stack pointer of 255 raises OutOfRangeAddress(256); its byte; and after a
CALL, from any state with the stack pointer and the pushed cell as the CALL left them, RET resumes at the CALL's address + 2. -/
def Obligations.RetPopsIntoPc : Prop :=
  (∀ s : State, (s.reg 7).toNat ≠ 255 → ∃ t, exec .ret s = .next t ∧
    t.pc.toNat = (s.mem.read (s.reg 7).toNat).toNat ∧ (t.reg 7).toNat = (s.reg 7).toNat + 1 ∧
    SameRegsExcept [7] s t ∧ t.fl = s.fl ∧ SameMemory s t ∧ t.out = s.out ∧ SameControl s t) ∧
  (∀ s : State, (s.reg 7).toNat = 255 → ExecFaults .ret 3 0x100 s) ∧
  encode .ret = [0x11] ∧
  ∀ (r : RegIdx) (s t u : State), s.pc.toNat ≤ 253 → (s.reg 7).toNat ≠ 0 → s.mem.wf →
    exec (.call (regByte r)) s = .next t →
    u.reg 7 = t.reg 7 → u.mem.read (t.reg 7).toNat = t.mem.read (t.reg 7).toNat →
    ∃ v, exec .ret u = .next v ∧ v.pc.toNat = s.pc.toNat + 2 ∧ v.reg 7 = s.reg 7

/-- R163: JMP puts the value of register r into `pc`, and changes nothing else; its faults; its bytes. -/
def Obligations.JmpJumps : Prop :=
  (∀ (r : RegIdx) (s : State), ∃ t, exec (.jmp (regByte r)) s = .next t ∧
    t.pc.toNat = (s.reg r).toNat ∧
    SameRegsExcept [] s t ∧ t.fl = s.fl ∧ SameMemory s t ∧ t.out = s.out ∧ SameControl s t) ∧
  (∀ (o0 : Byte) (s : State), 7 < o0.toNat → ExecFaults (.jmp o0) 4 (o0.setWidth 9) s) ∧
  OperandFetchFaults 0x54 1 ∧
  ∀ o0 : Byte, encode (.jmp o0) = [0x54, o0]

/-- R164: JEQ jumps when bit 0 of `fl` is set and goes on by 2 otherwise, and changes nothing else; its faults, taken or not; its
bytes. -/
def Obligations.JeqJumpsWhenEqual : Prop :=
  (∀ (r : RegIdx) (s : State), ∃ t, exec (.jeq (regByte r)) s = .next t ∧
    (if s.fl.getLsbD 0 = true then t.pc.toNat = (s.reg r).toNat else PcAdvances 2 s t) ∧
    SameRegsExcept [] s t ∧ t.fl = s.fl ∧ SameMemory s t ∧ t.out = s.out ∧ SameControl s t) ∧
  (∀ (o0 : Byte) (s : State), 7 < o0.toNat → ExecFaults (.jeq o0) 4 (o0.setWidth 9) s) ∧
  OperandFetchFaults 0x55 1 ∧
  ∀ o0 : Byte, encode (.jeq o0) = [0x55, o0]

/-- R165: JNE jumps when bit 0 of `fl` is clear and goes on by 2 otherwise, and changes nothing else; its faults, taken or not; its
bytes. -/
def Obligations.JneJumpsWhenNotEqual : Prop :=
  (∀ (r : RegIdx) (s : State), ∃ t, exec (.jne (regByte r)) s = .next t ∧
    (if s.fl.getLsbD 0 = false then t.pc.toNat = (s.reg r).toNat else PcAdvances 2 s t) ∧
    SameRegsExcept [] s t ∧ t.fl = s.fl ∧ SameMemory s t ∧ t.out = s.out ∧ SameControl s t) ∧
  (∀ (o0 : Byte) (s : State), 7 < o0.toNat → ExecFaults (.jne o0) 4 (o0.setWidth 9) s) ∧
  OperandFetchFaults 0x56 1 ∧
  ∀ o0 : Byte, encode (.jne o0) = [0x56, o0]

/-! ### Rules of the whole machine -/

/-- Every step keeps the invariant, from every state that has it (R26, R30, R33 and the canonical form of memory). -/
def Obligations.StepKeepsInvariant : Prop :=
  ∀ s t : State, s.Inv → step s = .next t → t.Inv

/-- The state after reset has the invariant. -/
def Obligations.ResetHasInvariant : Prop := State.reset.Inv

/-- Every state in which a run can start, whatever the image, has the invariant (R36, R64). -/
def Obligations.EveryStartStateHasInvariant : Prop :=
  ∀ (img : List Byte) (s : State), State.start img = some s → s.Inv

/-- Only CMP writes `fl` (R29, "Mutated only by the comparison operation"). -/
def Obligations.OnlyCmpWritesFlags : Prop :=
  ∀ s t : State, step s = .next t → t.fl ≠ s.fl → s.Fetches 0xA7

/-- Only JEQ and JNE read `fl`, and they read bit 0 alone (R29): two RUNNING machines that differ in `fl` only, and agree in its bit 0
if the instruction is one of those two, take steps that differ in `fl` only, and after a CMP not even there. -/
def Obligations.FlagsReadOnlyAsBitZeroByJumps : Prop :=
  ∀ (s : State) (f : Byte), s.run = .running →
    (s.byteAtPc = 0x55 ∨ s.byteAtPc = 0x56 → f.getLsbD 0 = s.fl.getLsbD 0) →
    ∃ t u, step s = .next t ∧ step (s.setFl f) = .next u ∧ u.setFl t.fl = t ∧
      ((t.fl = s.fl ∧ u.fl = f) ∨ (s.byteAtPc = 0xA7 ∧ u.fl = t.fl))

/-- No instruction reads `ir`, `fcause`, `finfo` or what was printed (R31, R33, R35): two RUNNING machines that differ in these only
compute the same registers, `pc`, flags, memory and execution state, and print the same. -/
def Obligations.DiagnosticsAndOutputAreNotRead : Prop :=
  ∀ (s : State) (b : Byte) (c : BitVec 3) (v : BitVec 9) (o : List Byte), s.run = .running →
    ∃ t u printed, step s = .next t ∧ step { s with ir := b, fcause := c, finfo := v, out := o } = .next u ∧
      u.x = t.x ∧ u.pc = t.pc ∧ u.fl = t.fl ∧ u.run = t.run ∧ u.mem = t.mem ∧
      t.out = s.out ++ printed ∧ u.out = o ++ printed

/-- Only PRN appends to the output, one value at a time, and nothing is taken from it (R35). -/
def Obligations.OnlyPrnWritesOutput : Prop :=
  ∀ s t : State, step s = .next t → t.out = s.out ∨ (s.Fetches 0x47 ∧ ∃ v, t.out = s.out ++ [v])

/-- Only PUSH and CALL write memory, only the one cell below the stack pointer, so that cell 255 is never written
(R53, R63, R151). -/
def Obligations.OnlyPushAndCallWriteMemory : Prop :=
  ∀ (s t : State) (a : Nat), step s = .next t → t.mem.read a ≠ s.mem.read a →
    (s.Fetches 0x45 ∨ s.Fetches 0x50) ∧ a + 1 = (s.reg 7).toNat ∧ a < 255

/-- The memory contract (R7, R51, R54): a write at an address 0..255 answers a state in which a read there gives the value, every
other address reads as before, and nothing but memory has changed. -/
def Obligations.MemoryReadsBackWhatWasWritten : Prop :=
  ∀ (s : State) (a : Int) (v : Byte), s.mem.wf → 0 ≤ a → a ≤ 255 →
    ∃ t, s.memWrite a v = .ok t ∧ t.memRead a = .ok v ∧ (∀ b : Int, b ≠ a → t.memRead b = s.memRead b) ∧
      t.mem.wf ∧ { t with mem := s.mem } = s

/-- An address below 0 or above 255 is refused by OutOfRangeAddress with that address, read or written; -1 is recorded as 0x1FF and
256 as 0x100 (R33, R52: the spec's decisions D6, D10). -/
def Obligations.OutOfRangeAddressesFault : Prop :=
  (∀ (s : State) (a : Int) (v : Byte), a < 0 ∨ 255 < a →
    s.memRead a = .error (.outOfRangeAddress a) ∧ s.memWrite a v = .error (.outOfRangeAddress a)) ∧
  (FaultKind.outOfRangeAddress (-1)).info = 0x1FF ∧ (FaultKind.outOfRangeAddress 256).info = 0x100

/-! ### Reset and loading -/

/-- The state after reset, by the table of R36 over a zeroed memory (the zeros of `ir`, `fcause`, `finfo` and the empty `out` are the
spec's decisions D10, D12, D16, log entry 12). -/
def Obligations.ResetState : Prop :=
  (∀ r : RegIdx, State.reset.reg r = if r = 7 then 0xF4 else 0) ∧
  State.reset.pc = 0 ∧ State.reset.fl = 0 ∧ State.reset.ir = 0 ∧ State.reset.run = .running ∧
  State.reset.fcause = 0 ∧ State.reset.finfo = 0 ∧ State.reset.out = [] ∧ ∀ a, State.reset.mem.read a = 0

/-- Reset from any state, HALTED and FAULTED too, gives the core state of R36 and does not write memory (R210: the spec's decision
D17). -/
def Obligations.ResetLeavesMemory : Prop :=
  ∀ s : State, s.applyReset.mem = s.mem ∧ { s.applyReset with mem := [] } = State.reset

/-- The loader copies the image into the zeroed memory from address 0, so that cell a holds image byte a below the image's length and
0x00 above it, and a machine that runs past the last image byte faults with UnknownOpcode (R64). An image of more than 256 bytes
cannot be loaded (R212); that the model gives it no start state is the model's choice (log entry 3, DESIGN CHOICE). -/
def Obligations.LoadedImageLiesFromAddressZero : Prop :=
  (∀ img : List Byte, img.length ≤ 256 → ∃ s, State.start img = some s ∧ s.mem.wf ∧
    (∀ a, a < img.length → img[a]? = some (s.mem.read a)) ∧
    (∀ a, img.length ≤ a → s.mem.read a = 0) ∧
    { s with mem := [] } = State.reset ∧
    ∀ t : State, t.mem = s.mem → t.run = .running → img.length ≤ t.pc.toNat → t.pc.toNat < 256 →
      StepFaults 1 0 0x00 t) ∧
  ∀ img : List Byte, 256 < img.length → State.start img = none
end

