-- ==== Sys2Proof/Laws/Decode.lean ====
section
/-! SUPPORT. The small lemmas of the register operand check and of the opcode map. -/

namespace Sys2Proof

theorem regByte_toNat (r : RegIdx) : (regByte r).toNat = r.val := by
  have := r.isLt
  simp [regByte]; omega

@[simp] theorem regIndex?_regByte (r : RegIdx) : regIndex? (regByte r) = some r := by
  simp [regIndex?, regByte_toNat]

@[simp] theorem legalReg_regByte (r : RegIdx) : legalReg (regByte r) = true := by
  have := r.isLt
  simp [legalReg, regByte_toNat]; omega

/-- A byte that names a register is that register's byte. -/
theorem regIndex?_eq_some {b : Byte} {r : RegIdx} (h : regIndex? b = some r) : b = regByte r := by
  unfold regIndex? at h
  split at h
  · next hb =>
    cases h
    exact BitVec.eq_of_toNat_eq (by rw [regByte_toNat])
  · cases h

theorem regIndex?_eq_none {b : Byte} : regIndex? b = none ↔ 8 ≤ b.toNat := by
  unfold regIndex?
  split <;> simp <;> omega

/-- A legal register operand byte is some register's byte (R83). -/
theorem legalReg_iff {b : Byte} : legalReg b = true ↔ ∃ r, b = regByte r := by
  refine ⟨fun h => ?_, by rintro ⟨r, rfl⟩; simp⟩
  have hb : b.toNat < 8 := by simp [legalReg] at h; omega
  exact ⟨⟨b.toNat, hb⟩, BitVec.eq_of_toNat_eq (by rw [regByte_toNat])⟩

theorem legalReg_eq_false {b : Byte} : legalReg b = false ↔ 8 ≤ b.toNat := by
  simp [legalReg]; omega

/-- The decoder of the instruction byte finds each opcode's byte (R86). -/
@[simp] theorem opcode?_byte (op : Opcode) : opcode? op.byte = some op := by
  cases op <;> rfl

/-- A byte decodes to an opcode only if it is that opcode's byte (R86). -/
theorem opcode?_eq_some {b : Byte} {op : Opcode} (h : opcode? b = some op) : b = op.byte := by
  have := List.find?_some h
  exact (beq_iff_eq.1 this).symm

/-- No two rows of the opcode map share a byte. -/
theorem opcodeTable_disjoint : opcodeTable.Pairwise (fun p q => p.byte ≠ q.byte) := by decide

end Sys2Proof
end

