-- ==== Sys2Proof/Laws/Memory.lean ====
section
/-! SUPPORT. The laws of the plain storage: every operation keeps the canonical form, a write leaves every other cell alone. -/

namespace Sys2Proof.Machine

@[simp] theorem Memory.read_nil (k : Nat) : Memory.read [] k = 0 := rfl

/-- The zeroed memory is in canonical form. -/
theorem Memory.wf_nil : Memory.wf [] := ⟨List.Pairwise.nil, by simp⟩

/-- An address the memory does not list reads as the blank cell. -/
theorem Memory.read_unlisted {m : Memory} {k : Nat} (h : ∀ p ∈ m, p.1 ≠ k) : m.read k = 0 := by
  induction m with
  | nil => rfl
  | cons p m ih =>
    obtain ⟨a, v⟩ := p
    have ha : k ≠ a := fun e => h (a, v) (by simp) e.symm
    simp only [Memory.read, ha, if_false]
    exact ih fun q hq => h q (by simp [hq])

/-- A write leaves every other cell as it was, in every memory. -/
theorem Memory.read_write_ne (m : Memory) {k j : Nat} (v : Byte) (h : j ≠ k) :
    (m.write k v).read j = m.read j := by
  induction m with
  | nil =>
    simp only [Memory.write]
    split_ifs
    · rfl
    · simp [Memory.read, h, Config.blankCell]
  | cons p m ih =>
    obtain ⟨a, w⟩ := p
    simp only [Memory.write]
    split_ifs with h1 h2 h3 h4
    · rfl
    · simp [Memory.read, h]
    · have : j ≠ a := h3 ▸ h
      simp [Memory.read, this]
    · have : j ≠ a := h3 ▸ h
      simp [Memory.read, h, this]
    · simp only [Memory.read, ih]

/-- The addresses a memory lists after a write. -/
theorem Memory.mem_write {m : Memory} {k : Nat} {v : Byte} {p : Host.Cell} (h : p ∈ m.write k v) :
    p ∈ m ∨ (p = (k, v) ∧ v ≠ Config.blankCell) := by
  induction m with
  | nil =>
    simp only [Memory.write] at h
    split_ifs at h with hv
    · exact .inl h
    · exact .inr ⟨by simpa using h, hv⟩
  | cons q m ih =>
    obtain ⟨a, w⟩ := q
    simp only [Memory.write] at h
    split_ifs at h with h1 h2 h3 h4
    · exact .inl h
    · rcases List.mem_cons.1 h with h | h
      · exact .inr ⟨h, h2⟩
      · exact .inl h
    · exact .inl (List.mem_cons_of_mem _ h)
    · rcases List.mem_cons.1 h with h | h
      · exact .inr ⟨h, h4⟩
      · exact .inl (List.mem_cons_of_mem _ h)
    · rcases List.mem_cons.1 h with h | h
      · exact .inl (by simp [h])
      · exact (ih h).imp_left (List.mem_cons_of_mem _)

/-- A write to an existing cell keeps the canonical form. -/
theorem Memory.wf_write {m : Memory} (h : m.wf) {k : Nat} (hk : k < 256) (v : Byte) : (m.write k v).wf := by
  refine ⟨?_, fun p hp => ?_⟩
  · have hs := h.1
    clear h
    induction m with
    | nil => by_cases hv : v = Config.blankCell <;> simp [Memory.write, hv]
    | cons q m ih =>
      obtain ⟨a, w⟩ := q
      obtain ⟨ha, hm⟩ := List.pairwise_cons.1 hs
      simp only [Memory.write]
      split_ifs with h1 h2 h3 h4
      · exact hs
      · refine List.pairwise_cons.2 ⟨fun p hp => ?_, hs⟩
        rcases List.mem_cons.1 hp with rfl | hp
        · exact h1
        · exact Nat.lt_trans h1 (ha p hp)
      · exact hm
      · exact List.pairwise_cons.2 ⟨fun p hp => h3 ▸ ha p hp, hm⟩
      · refine List.pairwise_cons.2 ⟨fun p hp => ?_, ih hm⟩
        rcases Memory.mem_write hp with hp | ⟨rfl, _⟩
        · exact ha p hp
        · show a < k; omega
  · rcases Memory.mem_write hp with hp | ⟨rfl, hv⟩
    · exact h.2 p hp
    · exact ⟨hk, hv⟩

/-- In a canonical memory the written cell reads as the value written. -/
theorem Memory.read_write_same {m : Memory} (h : m.wf) (k : Nat) (v : Byte) : (m.write k v).read k = v := by
  have hs := h.1
  clear h
  induction m with
  | nil =>
    simp only [Memory.write]
    split_ifs with hv
    · exact hv.symm
    · simp [Memory.read]
  | cons q m ih =>
    obtain ⟨a, w⟩ := q
    obtain ⟨ha, hm⟩ := List.pairwise_cons.1 hs
    simp only [Memory.write]
    split_ifs with h1 h2 h3 h4
    · rw [h2]
      exact Memory.read_unlisted fun p hp => by
        rcases List.mem_cons.1 hp with rfl | hp
        · show a ≠ k; omega
        · have := ha p hp; simp only at this; omega
    · simp [Memory.read]
    · rw [h4]
      exact Memory.read_unlisted fun p hp => by
        have := ha p hp; simp only at this; omega
    · simp [Memory.read]
    · simp only [Memory.read, h3, if_false]
      exact ih hm

/-- Storing bytes one after the other keeps the canonical form. -/
theorem Memory.wf_writeBytes {m : Memory} (h : m.wf) (a : Nat) (bs : List Byte) : (m.writeBytes a bs).wf := by
  induction bs generalizing m a with
  | nil => exact h
  | cons b bs ih =>
    simp only [Memory.writeBytes]
    split_ifs with ha
    · exact ih (Memory.wf_write h ha b) _
    · exact ih h _

/-- Cells below the first one stored to are as they were. -/
theorem Memory.read_writeBytes_below (m : Memory) {a k : Nat} (bs : List Byte) (h : k < a) :
    (m.writeBytes a bs).read k = m.read k := by
  induction bs generalizing m a with
  | nil => rfl
  | cons b bs ih =>
    simp only [Memory.writeBytes]
    rw [ih _ (by omega)]
    split_ifs
    · exact Memory.read_write_ne _ _ (by omega)
    · rfl

/-- The memory of an image is in canonical form. -/
theorem Memory.wf_ofImage (img : List Byte) : (Memory.ofImage img).wf :=
  Memory.wf_writeBytes Memory.wf_nil 0 img

end Sys2Proof.Machine
end

