-- ==== Sys2Proof/Laws/State.lean ====
section
/-! SUPPORT. One lemma per field per named update of the state, so that no proof unfolds a record update. -/

namespace Sys2Proof.Machine

/-! ### setReg -/

@[simp] theorem State.setReg_pc (s : State) (i : RegIdx) (v : Byte) : (s.setReg i v).pc = s.pc := rfl
@[simp] theorem State.setReg_fl (s : State) (i : RegIdx) (v : Byte) : (s.setReg i v).fl = s.fl := rfl
@[simp] theorem State.setReg_ir (s : State) (i : RegIdx) (v : Byte) : (s.setReg i v).ir = s.ir := rfl
@[simp] theorem State.setReg_run (s : State) (i : RegIdx) (v : Byte) : (s.setReg i v).run = s.run := rfl
@[simp] theorem State.setReg_fcause (s : State) (i : RegIdx) (v : Byte) : (s.setReg i v).fcause = s.fcause := rfl
@[simp] theorem State.setReg_finfo (s : State) (i : RegIdx) (v : Byte) : (s.setReg i v).finfo = s.finfo := rfl
@[simp] theorem State.setReg_mem (s : State) (i : RegIdx) (v : Byte) : (s.setReg i v).mem = s.mem := rfl
@[simp] theorem State.setReg_out (s : State) (i : RegIdx) (v : Byte) : (s.setReg i v).out = s.out := rfl

/-! ### jumpTo -/

@[simp] theorem State.jumpTo_x (s : State) (v : Byte) : (s.jumpTo v).x = s.x := rfl
@[simp] theorem State.jumpTo_pc (s : State) (v : Byte) : (s.jumpTo v).pc = v.setWidth 9 := rfl
@[simp] theorem State.jumpTo_fl (s : State) (v : Byte) : (s.jumpTo v).fl = s.fl := rfl
@[simp] theorem State.jumpTo_ir (s : State) (v : Byte) : (s.jumpTo v).ir = s.ir := rfl
@[simp] theorem State.jumpTo_run (s : State) (v : Byte) : (s.jumpTo v).run = s.run := rfl
@[simp] theorem State.jumpTo_fcause (s : State) (v : Byte) : (s.jumpTo v).fcause = s.fcause := rfl
@[simp] theorem State.jumpTo_finfo (s : State) (v : Byte) : (s.jumpTo v).finfo = s.finfo := rfl
@[simp] theorem State.jumpTo_mem (s : State) (v : Byte) : (s.jumpTo v).mem = s.mem := rfl
@[simp] theorem State.jumpTo_out (s : State) (v : Byte) : (s.jumpTo v).out = s.out := rfl
@[simp] theorem State.jumpTo_reg (s : State) (v : Byte) (j : RegIdx) : (s.jumpTo v).reg j = s.reg j := rfl

/-! ### advance -/

@[simp] theorem State.advance_x (s : State) (n : Nat) : (s.advance n).x = s.x := rfl
@[simp] theorem State.advance_pc (s : State) (n : Nat) : (s.advance n).pc = BitVec.ofNat 9 (s.pc.toNat + 1 + n) := rfl
@[simp] theorem State.advance_fl (s : State) (n : Nat) : (s.advance n).fl = s.fl := rfl
@[simp] theorem State.advance_ir (s : State) (n : Nat) : (s.advance n).ir = s.ir := rfl
@[simp] theorem State.advance_run (s : State) (n : Nat) : (s.advance n).run = s.run := rfl
@[simp] theorem State.advance_fcause (s : State) (n : Nat) : (s.advance n).fcause = s.fcause := rfl
@[simp] theorem State.advance_finfo (s : State) (n : Nat) : (s.advance n).finfo = s.finfo := rfl
@[simp] theorem State.advance_mem (s : State) (n : Nat) : (s.advance n).mem = s.mem := rfl
@[simp] theorem State.advance_out (s : State) (n : Nat) : (s.advance n).out = s.out := rfl
@[simp] theorem State.advance_reg (s : State) (n : Nat) (j : RegIdx) : (s.advance n).reg j = s.reg j := rfl

/-! ### setFl -/

@[simp] theorem State.setFl_x (s : State) (v : Byte) : (s.setFl v).x = s.x := rfl
@[simp] theorem State.setFl_pc (s : State) (v : Byte) : (s.setFl v).pc = s.pc := rfl
@[simp] theorem State.setFl_fl (s : State) (v : Byte) : (s.setFl v).fl = v := rfl
@[simp] theorem State.setFl_ir (s : State) (v : Byte) : (s.setFl v).ir = s.ir := rfl
@[simp] theorem State.setFl_run (s : State) (v : Byte) : (s.setFl v).run = s.run := rfl
@[simp] theorem State.setFl_fcause (s : State) (v : Byte) : (s.setFl v).fcause = s.fcause := rfl
@[simp] theorem State.setFl_finfo (s : State) (v : Byte) : (s.setFl v).finfo = s.finfo := rfl
@[simp] theorem State.setFl_mem (s : State) (v : Byte) : (s.setFl v).mem = s.mem := rfl
@[simp] theorem State.setFl_out (s : State) (v : Byte) : (s.setFl v).out = s.out := rfl
@[simp] theorem State.setFl_reg (s : State) (v : Byte) (j : RegIdx) : (s.setFl v).reg j = s.reg j := rfl

/-! ### setIr -/

@[simp] theorem State.setIr_x (s : State) (v : Byte) : (s.setIr v).x = s.x := rfl
@[simp] theorem State.setIr_pc (s : State) (v : Byte) : (s.setIr v).pc = s.pc := rfl
@[simp] theorem State.setIr_fl (s : State) (v : Byte) : (s.setIr v).fl = s.fl := rfl
@[simp] theorem State.setIr_ir (s : State) (v : Byte) : (s.setIr v).ir = v := rfl
@[simp] theorem State.setIr_run (s : State) (v : Byte) : (s.setIr v).run = s.run := rfl
@[simp] theorem State.setIr_fcause (s : State) (v : Byte) : (s.setIr v).fcause = s.fcause := rfl
@[simp] theorem State.setIr_finfo (s : State) (v : Byte) : (s.setIr v).finfo = s.finfo := rfl
@[simp] theorem State.setIr_mem (s : State) (v : Byte) : (s.setIr v).mem = s.mem := rfl
@[simp] theorem State.setIr_out (s : State) (v : Byte) : (s.setIr v).out = s.out := rfl
@[simp] theorem State.setIr_reg (s : State) (v : Byte) (j : RegIdx) : (s.setIr v).reg j = s.reg j := rfl

/-! ### setRun -/

@[simp] theorem State.setRun_x (s : State) (r : RunState) : (s.setRun r).x = s.x := rfl
@[simp] theorem State.setRun_pc (s : State) (r : RunState) : (s.setRun r).pc = s.pc := rfl
@[simp] theorem State.setRun_fl (s : State) (r : RunState) : (s.setRun r).fl = s.fl := rfl
@[simp] theorem State.setRun_ir (s : State) (r : RunState) : (s.setRun r).ir = s.ir := rfl
@[simp] theorem State.setRun_run (s : State) (r : RunState) : (s.setRun r).run = r := rfl
@[simp] theorem State.setRun_fcause (s : State) (r : RunState) : (s.setRun r).fcause = s.fcause := rfl
@[simp] theorem State.setRun_finfo (s : State) (r : RunState) : (s.setRun r).finfo = s.finfo := rfl
@[simp] theorem State.setRun_mem (s : State) (r : RunState) : (s.setRun r).mem = s.mem := rfl
@[simp] theorem State.setRun_out (s : State) (r : RunState) : (s.setRun r).out = s.out := rfl
@[simp] theorem State.setRun_reg (s : State) (r : RunState) (j : RegIdx) : (s.setRun r).reg j = s.reg j := rfl

/-! ### setCell -/

@[simp] theorem State.setCell_x (s : State) (k : Nat) (v : Byte) : (s.setCell k v).x = s.x := rfl
@[simp] theorem State.setCell_pc (s : State) (k : Nat) (v : Byte) : (s.setCell k v).pc = s.pc := rfl
@[simp] theorem State.setCell_fl (s : State) (k : Nat) (v : Byte) : (s.setCell k v).fl = s.fl := rfl
@[simp] theorem State.setCell_ir (s : State) (k : Nat) (v : Byte) : (s.setCell k v).ir = s.ir := rfl
@[simp] theorem State.setCell_run (s : State) (k : Nat) (v : Byte) : (s.setCell k v).run = s.run := rfl
@[simp] theorem State.setCell_fcause (s : State) (k : Nat) (v : Byte) : (s.setCell k v).fcause = s.fcause := rfl
@[simp] theorem State.setCell_finfo (s : State) (k : Nat) (v : Byte) : (s.setCell k v).finfo = s.finfo := rfl
@[simp] theorem State.setCell_mem (s : State) (k : Nat) (v : Byte) : (s.setCell k v).mem = s.mem.write k v := rfl
@[simp] theorem State.setCell_out (s : State) (k : Nat) (v : Byte) : (s.setCell k v).out = s.out := rfl
@[simp] theorem State.setCell_reg (s : State) (k : Nat) (v : Byte) (j : RegIdx) : (s.setCell k v).reg j = s.reg j := rfl

/-! ### emit -/

@[simp] theorem State.emit_x (s : State) (v : Byte) : (s.emit v).x = s.x := rfl
@[simp] theorem State.emit_pc (s : State) (v : Byte) : (s.emit v).pc = s.pc := rfl
@[simp] theorem State.emit_fl (s : State) (v : Byte) : (s.emit v).fl = s.fl := rfl
@[simp] theorem State.emit_ir (s : State) (v : Byte) : (s.emit v).ir = s.ir := rfl
@[simp] theorem State.emit_run (s : State) (v : Byte) : (s.emit v).run = s.run := rfl
@[simp] theorem State.emit_fcause (s : State) (v : Byte) : (s.emit v).fcause = s.fcause := rfl
@[simp] theorem State.emit_finfo (s : State) (v : Byte) : (s.emit v).finfo = s.finfo := rfl
@[simp] theorem State.emit_mem (s : State) (v : Byte) : (s.emit v).mem = s.mem := rfl
@[simp] theorem State.emit_out (s : State) (v : Byte) : (s.emit v).out = s.out ++ [v] := rfl
@[simp] theorem State.emit_reg (s : State) (v : Byte) (j : RegIdx) : (s.emit v).reg j = s.reg j := rfl

/-! ### raise -/

@[simp] theorem State.raise_x (e : FaultKind) (s : State) : (s.raise e).x = s.x := rfl
@[simp] theorem State.raise_pc (e : FaultKind) (s : State) : (s.raise e).pc = s.pc := rfl
@[simp] theorem State.raise_fl (e : FaultKind) (s : State) : (s.raise e).fl = s.fl := rfl
@[simp] theorem State.raise_ir (e : FaultKind) (s : State) : (s.raise e).ir = s.ir := rfl
@[simp] theorem State.raise_run (e : FaultKind) (s : State) : (s.raise e).run = .faulted := rfl
@[simp] theorem State.raise_fcause (e : FaultKind) (s : State) : (s.raise e).fcause = e.code := rfl
@[simp] theorem State.raise_finfo (e : FaultKind) (s : State) : (s.raise e).finfo = e.info := rfl
@[simp] theorem State.raise_mem (e : FaultKind) (s : State) : (s.raise e).mem = s.mem := rfl
@[simp] theorem State.raise_out (e : FaultKind) (s : State) : (s.raise e).out = s.out := rfl
@[simp] theorem State.raise_reg (e : FaultKind) (s : State) (j : RegIdx) : (s.raise e).reg j = s.reg j := rfl

/-! ### The register file -/

/-- Read after write of the register file. -/
theorem State.setReg_reg (s : State) (i : RegIdx) (v : Byte) (j : RegIdx) :
    (s.setReg i v).reg j = if j = i then v else s.reg j := by
  by_cases h : j = i
  · subst h; simp [State.setReg, State.reg, Vector.get_eq_getElem]
  · have h' : i.val ≠ j.val := fun e => h (Fin.ext e.symm)
    simp [State.setReg, State.reg, Vector.get_eq_getElem, h, h']

@[simp] theorem State.setReg_reg_same (s : State) (i : RegIdx) (v : Byte) : (s.setReg i v).reg i = v := by
  simp [State.setReg_reg]

@[simp] theorem State.setReg_reg_ne (s : State) {i j : RegIdx} (v : Byte) (h : j ≠ i) :
    (s.setReg i v).reg j = s.reg j := by
  simp [State.setReg_reg, h]

end Sys2Proof.Machine
end

