-- ==== Sys2Proof/Laws/Ops.lean ====
section
/-! SUPPORT. For each shared operation of the machine, once, everything it can do. -/

namespace Sys2Proof.Machine

/-! ### The end of an instruction -/

/-- A rule goes on when a test succeeds. -/
theorem ok_bind {α β : Type} (a : α) (f : α → Except FaultKind β) : (Except.ok a >>= f) = f a := rfl

/-- A rule stops at its first test that fails. -/
theorem error_bind {α β : Type} (e : FaultKind) (f : α → Except FaultKind β) :
    (Except.error e >>= f) = Except.error e := rfl

@[simp] theorem complete_ok (s t : State) : complete s (.ok t) = .next t := rfl

@[simp] theorem complete_error (s : State) (e : FaultKind) : complete s (.error e) = .next (s.raise e) := rfl

/-- An instruction ends in the state its rule computed or in the fault its rule raised. -/
theorem complete_eq_next {s t : State} {r : Except FaultKind State} (h : complete s r = .next t) :
    r = .ok t ∨ ∃ e, r = .error e ∧ t = s.raise e := by
  cases r with
  | ok u => exact .inl (by cases h; rfl)
  | error e => exact .inr ⟨e, rfl, by cases h; rfl⟩

/-! ### Operand forms -/

@[simp] theorem reg_regByte (r : RegIdx) : reg (regByte r) = .ok r := by simp [reg]

/-- A register operand byte above 7 raises InvalidRegister (R83). -/
theorem reg_bad {b : Byte} (h : 8 ≤ b.toNat) : reg b = .error (.invalidRegister b) := by
  simp [reg, regIndex?_eq_none.2 h]

@[simp] theorem formZ_eq (s : State) (f : Except FaultKind State) : formZ s f = complete s f := rfl

@[simp] theorem formR_regByte (r : RegIdx) (s : State) (f : RegIdx → Except FaultKind State) :
    formR (regByte r) s f = complete s (f r) := by
  simp only [formR, reg_regByte]; rfl

@[simp] theorem formRR_regByte (a b : RegIdx) (s : State) (f : RegIdx → RegIdx → Except FaultKind State) :
    formRR (regByte a) (regByte b) s f = complete s (f a b) := by
  simp only [formRR, reg_regByte]; rfl

@[simp] theorem formRI_regByte (r : RegIdx) (v : Byte) (s : State) (f : RegIdx → Byte → Except FaultKind State) :
    formRI (regByte r) v s f = complete s (f r v) := by
  simp only [formRI, reg_regByte]; rfl

theorem formR_bad {b : Byte} (h : 8 ≤ b.toNat) (s : State) (f : RegIdx → Except FaultKind State) :
    formR b s f = .next (s.raise (.invalidRegister b)) := by
  simp only [formR, reg_bad h]; rfl

theorem formRI_bad {b : Byte} (h : 8 ≤ b.toNat) (v : Byte) (s : State) (f : RegIdx → Byte → Except FaultKind State) :
    formRI b v s f = .next (s.raise (.invalidRegister b)) := by
  simp only [formRI, reg_bad h]; rfl

/-- Operand 0 is checked first, whatever operand 1 is (R187). -/
theorem formRR_bad_left {a : Byte} (h : 8 ≤ a.toNat) (b : Byte) (s : State)
    (f : RegIdx → RegIdx → Except FaultKind State) :
    formRR a b s f = .next (s.raise (.invalidRegister a)) := by
  simp only [formRR, reg_bad h]; rfl

theorem formRR_bad_right (a : RegIdx) {b : Byte} (h : 8 ≤ b.toNat) (s : State)
    (f : RegIdx → RegIdx → Except FaultKind State) :
    formRR (regByte a) b s f = .next (s.raise (.invalidRegister b)) := by
  simp only [formRR, reg_regByte, reg_bad h]; rfl

/-! ### Memory access and the stack pointer -/

/-- The addresses of the machine are 0 to 255 (R52). -/
theorem inRange_iff {a : Int} : inRange a = true ↔ 0 ≤ a ∧ a ≤ 255 := by simp [inRange]

theorem inRange_eq_false {a : Int} : inRange a = false ↔ a < 0 ∨ 255 < a := by
  simp [inRange, Decidable.imp_iff_not_or]

/-- A read at an address below 256 answers the cell. -/
theorem State.memRead_nat (s : State) {k : Nat} (h : k < 256) : s.memRead k = .ok (s.mem.read k) := by
  have : inRange (k : Int) = true := inRange_iff.2 ⟨by omega, by omega⟩
  simp [State.memRead, this]

/-- A read above the last cell is out of range (R52). -/
theorem State.memRead_above (s : State) {k : Nat} (h : 256 ≤ k) :
    s.memRead k = .error (.outOfRangeAddress k) := by
  have : inRange (k : Int) = false := inRange_eq_false.2 (by omega)
  simp [State.memRead, this]

/-- A write at an address below 256 stores the byte. -/
theorem State.memWrite_nat (s : State) {k : Nat} (h : k < 256) (v : Byte) :
    s.memWrite k v = .ok (s.setCell k v) := by
  have : inRange (k : Int) = true := inRange_iff.2 ⟨by omega, by omega⟩
  simp [State.memWrite, this]

/-- Moving the stack pointer to a value that fits: the new value is stored (R145). -/
theorem State.moveSp_ok (s : State) {d : Int} {v : Byte} (h : ((s.reg 7).toNat : Int) + d = v.toNat) :
    s.moveSp d = .ok (s.setReg 7 v) := by
  have hv := v.isLt
  have hr : inRange (v.toNat : Int) = true := inRange_iff.2 ⟨by omega, by omega⟩
  simp only [State.moveSp, h, hr, if_true, BitVec.ofInt_natCast, BitVec.ofNat_toNat, BitVec.setWidth_eq]

/-- Moving the stack pointer to a value that does not fit: the fault records that value (R145, R153). -/
theorem State.moveSp_error (s : State) {d v : Int} (h : ((s.reg 7).toNat : Int) + d = v)
    (hv : v < 0 ∨ 255 < v) : s.moveSp d = .error (.outOfRangeAddress v) := by
  have hr : inRange v = false := inRange_eq_false.2 hv
  simp [State.moveSp, h, hr]

theorem byte_pred_toNat {b : Byte} (h : b.toNat ≠ 0) : (b - 1).toNat = b.toNat - 1 := by
  have := b.isLt
  have h1 : (1 : Byte).toNat = 1 := rfl
  rw [BitVec.toNat_sub, h1]; omega

theorem byte_succ_toNat {b : Byte} (h : b.toNat ≠ 255) : (b + 1).toNat = b.toNat + 1 := by
  have := b.isLt
  have h1 : (1 : Byte).toNat = 1 := rfl
  rw [BitVec.toNat_add, h1]; omega

/-- Decrementing the stack pointer: everything it can do (R151, R153). -/
theorem State.moveSp_down (s : State) :
    s.moveSp (-1) =
      if (s.reg 7).toNat = 0 then .error (.outOfRangeAddress (-1))
      else .ok (s.setReg 7 (s.reg 7 - 1)) := by
  split_ifs with h
  · exact s.moveSp_error (by omega) (by omega)
  · exact s.moveSp_ok (by rw [byte_pred_toNat h]; omega)

/-- Incrementing the stack pointer: everything it can do (R152, R153). -/
theorem State.moveSp_up (s : State) :
    s.moveSp 1 =
      if (s.reg 7).toNat = 255 then .error (.outOfRangeAddress 256)
      else .ok (s.setReg 7 (s.reg 7 + 1)) := by
  split_ifs with h
  · exact s.moveSp_error (by omega) (by omega)
  · exact s.moveSp_ok (by rw [byte_succ_toNat h]; omega)

/-- A push: everything it can do (R150, R151). -/
theorem State.push_eq (s : State) (v : State → Byte) :
    s.push v =
      if (s.reg 7).toNat = 0 then .error (.outOfRangeAddress (-1))
      else .ok ((s.setReg 7 (s.reg 7 - 1)).setCell ((s.reg 7).toNat - 1) (v (s.setReg 7 (s.reg 7 - 1)))) := by
  have hlt := (s.reg 7).isLt
  unfold State.push
  rw [State.moveSp_down]
  split_ifs with h
  · rfl
  · show State.memWrite _ (((s.setReg 7 (s.reg 7 - 1)).reg 7).toNat : Int) _ = _
    rw [State.setReg_reg_same, byte_pred_toNat h, State.memWrite_nat _ (by omega)]

/-- The top of the stack can always be read (R152: the address `x[7]` is in range). -/
@[simp] theorem State.memRead_sp (s : State) :
    s.memRead (s.reg 7).toNat = .ok (s.mem.read (s.reg 7).toNat) :=
  s.memRead_nat (BitVec.isLt _)

/-! ### Fetch -/

/-- The fetch: everything it can do (R112). -/
theorem State.fetch_eq (s : State) :
    s.fetch =
      if s.pc.toNat < 256 then .ok (s.setIr (s.mem.read s.pc.toNat))
      else .error (.outOfRangeAddress s.pc.toNat) := by
  unfold State.fetch
  split_ifs with h
  · rw [State.memRead_nat _ h]; rfl
  · rw [State.memRead_above _ (by omega)]; rfl

end Sys2Proof.Machine
end

