-- ==== Sys2Proof/Laws/Exec.lean ====
section
/-! SUPPORT. For each instruction, on legal operands, what `exec` answers, in the named updates of the state; and, once, the
fault of an illegal register operand. -/

namespace Sys2Proof.Machine

theorem exec_hlt (s : State) : exec .hlt s = .next ((s.setRun .halted).advance 0) := rfl

theorem exec_ldi (r : RegIdx) (v : Byte) (s : State) :
    exec (.ldi (regByte r) v) s = .next ((s.setReg r v).advance 2) := by
  simp only [exec, execLdi, formRI_regByte, complete_ok]

theorem exec_prn (r : RegIdx) (s : State) :
    exec (.prn (regByte r)) s = .next ((s.emit (s.reg r)).advance 1) := by
  simp only [exec, execPrn, formR_regByte, complete_ok]

theorem exec_add (a b : RegIdx) (s : State) :
    exec (.add (regByte a) (regByte b)) s =
      .next ((s.setReg a (BitVec.ofNat 8 ((s.reg a).toNat + (s.reg b).toNat))).advance 2) := by
  simp only [exec, execAdd, State.alu, formRR_regByte, complete_ok]

theorem exec_mul (a b : RegIdx) (s : State) :
    exec (.mul (regByte a) (regByte b)) s =
      .next ((s.setReg a (BitVec.ofNat 8 ((s.reg a).toNat * (s.reg b).toNat))).advance 2) := by
  simp only [exec, execMul, State.alu, formRR_regByte, complete_ok]

theorem exec_cmp (a b : RegIdx) (s : State) :
    exec (.cmp (regByte a) (regByte b)) s =
      .next ((s.setFl (cmpFlags (s.reg a) (s.reg b))).advance 2) := by
  simp only [exec, execCmp, State.alu, formRR_regByte, complete_ok]

theorem exec_jmp (r : RegIdx) (s : State) : exec (.jmp (regByte r)) s = .next (s.jumpTo (s.reg r)) := by
  simp only [exec, execJmp, formR_regByte, complete_ok]

theorem exec_jeq (r : RegIdx) (s : State) :
    exec (.jeq (regByte r)) s = .next (if s.equalFlag then s.jumpTo (s.reg r) else s.advance 1) := by
  simp only [exec, execJeq, formR_regByte, complete_ok]

theorem exec_jne (r : RegIdx) (s : State) :
    exec (.jne (regByte r)) s = .next (if s.equalFlag then s.advance 1 else s.jumpTo (s.reg r)) := by
  simp only [exec, execJne, formR_regByte, complete_ok]

/-- PUSH: the stored byte is register r after the decrement. -/
theorem exec_push (r : RegIdx) (s : State) :
    exec (.push (regByte r)) s =
      .next (if (s.reg 7).toNat = 0 then s.raise (.outOfRangeAddress (-1))
        else (((s.setReg 7 (s.reg 7 - 1)).setCell ((s.reg 7).toNat - 1)
          ((s.setReg 7 (s.reg 7 - 1)).reg r)).advance 1)) := by
  simp only [exec, execPush, formR_regByte, State.push_eq]
  split <;> simp only [ok_bind, error_bind, complete_ok, complete_error]

/-- POP: the increment acts on the register file after the load. -/
theorem exec_pop (r : RegIdx) (s : State) :
    exec (.pop (regByte r)) s =
      .next (if ((s.setReg r (s.mem.read (s.reg 7).toNat)).reg 7).toNat = 255 then s.raise (.outOfRangeAddress 256)
        else (((s.setReg r (s.mem.read (s.reg 7).toNat)).setReg 7
          ((s.setReg r (s.mem.read (s.reg 7).toNat)).reg 7 + 1)).advance 1)) := by
  simp only [exec, execPop, formR_regByte, State.sp, State.memRead_sp, ok_bind, State.moveSp_up]
  split <;> simp only [ok_bind, error_bind, complete_ok, complete_error]

/-- CALL: the return address is tested before the stack pointer, and the target is read after the push. -/
theorem exec_call (r : RegIdx) (s : State) :
    exec (.call (regByte r)) s =
      .next (if 253 < s.pc.toNat then s.raise (.outOfRangeAddress 256)
        else if (s.reg 7).toNat = 0 then s.raise (.outOfRangeAddress (-1))
        else (((s.setReg 7 (s.reg 7 - 1)).setCell ((s.reg 7).toNat - 1) (BitVec.ofNat 8 (s.pc.toNat + 2))).jumpTo
          ((s.setReg 7 (s.reg 7 - 1)).reg r))) := by
  simp only [exec, execCall, formR_regByte, State.returnAddress, State.push_eq]
  by_cases h : 253 < s.pc.toNat
  · rw [if_neg (by omega), if_pos h, error_bind, complete_error]
  · rw [if_pos (by omega), if_neg h, ok_bind]
    split <;> simp only [ok_bind, error_bind, complete_ok, complete_error, State.setCell_reg]

theorem exec_ret (s : State) :
    exec .ret s =
      .next (if (s.reg 7).toNat = 255 then s.raise (.outOfRangeAddress 256)
        else (s.setReg 7 (s.reg 7 + 1)).jumpTo (s.mem.read (s.reg 7).toNat)) := by
  simp only [exec, execRet, formZ_eq, State.sp, State.memRead_sp, ok_bind, State.moveSp_up]
  split <;> simp only [ok_bind, error_bind, complete_ok, complete_error]

/-- A first register operand byte above 7 makes the instruction raise InvalidRegister with it (R83, R187). -/
theorem exec_illegal_first {i : Instr} {b : Byte} (s : State) (h : i.registerBytes.head? = some b)
    (hb : 8 ≤ b.toNat) : exec i s = .next (s.raise (.invalidRegister b)) := by
  cases i <;> simp only [Instr.registerBytes, List.head?_cons, List.head?_nil, Option.some.injEq, reduceCtorEq] at h <;>
    subst h <;>
    simp only [exec, execLdi, execPrn, execAdd, execMul, execPush, execPop, execCall, execCmp, execJmp, execJeq, execJne,
      formR_bad hb, formRI_bad hb, formRR_bad_left hb]

/-- A second register operand byte above 7 does, when the first is legal (R83, R187). -/
theorem exec_illegal_second {i : Instr} {a : RegIdx} {b : Byte} (s : State) (h : i.registerBytes = [regByte a, b])
    (hb : 8 ≤ b.toNat) : exec i s = .next (s.raise (.invalidRegister b)) := by
  cases i <;> simp only [Instr.registerBytes, List.cons.injEq, reduceCtorEq, and_true, and_false] at h <;>
    obtain ⟨rfl, rfl⟩ := h <;>
    simp only [exec, execAdd, execMul, execCmp, formRR_bad_right a hb]

/-- A well-formed instruction is one of these, on register indices (R83). -/
theorem wellFormed_cases {i : Instr} (h : i.WellFormed) :
    i = .hlt ∨ (∃ r v, i = .ldi (regByte r) v) ∨ (∃ r, i = .prn (regByte r)) ∨
    (∃ a b, i = .add (regByte a) (regByte b)) ∨ (∃ a b, i = .mul (regByte a) (regByte b)) ∨
    (∃ r, i = .push (regByte r)) ∨ (∃ r, i = .pop (regByte r)) ∨ (∃ r, i = .call (regByte r)) ∨ i = .ret ∨
    (∃ a b, i = .cmp (regByte a) (regByte b)) ∨ (∃ r, i = .jmp (regByte r)) ∨ (∃ r, i = .jeq (regByte r)) ∨
    (∃ r, i = .jne (regByte r)) := by
  cases i <;> simp [Instr.WellFormed, Instr.wf, Instr.registerBytes, legalReg_iff] at h <;>
    (try obtain ⟨⟨r, rfl⟩, ⟨r', rfl⟩⟩ := h) <;> (try obtain ⟨r, rfl⟩ := h) <;> simp

end Sys2Proof.Machine
end

