-- ==== Sys2Proof/Laws/PerInstr.lean ====
section
/-! SUPPORT. A statement for all instructions, one lemma per constructor: the encoded bytes of an instruction. -/

namespace Sys2Proof.Laws.EncodedBytes

/-- The encoded instruction is its opcode's byte followed by as many operand bytes as its format has, the register operands
first (R80, R81, R82). -/
def Statement (i : Instr) : Prop :=
  (encode i).length = i.length ∧ (encode i).head? = some i.opcode.byte ∧
    i.registerBytes <+: (encode i).tail

theorem hlt : Statement .hlt := ⟨rfl, rfl, List.nil_prefix⟩
theorem ldi (r imm : Byte) : Statement (.ldi r imm) := ⟨rfl, rfl, ⟨[imm], rfl⟩⟩
theorem prn (r : Byte) : Statement (.prn r) := ⟨rfl, rfl, List.prefix_rfl⟩
theorem add (a b : Byte) : Statement (.add a b) := ⟨rfl, rfl, List.prefix_rfl⟩
theorem mul (a b : Byte) : Statement (.mul a b) := ⟨rfl, rfl, List.prefix_rfl⟩
theorem push (r : Byte) : Statement (.push r) := ⟨rfl, rfl, List.prefix_rfl⟩
theorem pop (r : Byte) : Statement (.pop r) := ⟨rfl, rfl, List.prefix_rfl⟩
theorem call (r : Byte) : Statement (.call r) := ⟨rfl, rfl, List.prefix_rfl⟩
theorem ret : Statement .ret := ⟨rfl, rfl, List.nil_prefix⟩
theorem cmp (a b : Byte) : Statement (.cmp a b) := ⟨rfl, rfl, List.prefix_rfl⟩
theorem jmp (r : Byte) : Statement (.jmp r) := ⟨rfl, rfl, List.prefix_rfl⟩
theorem jeq (r : Byte) : Statement (.jeq r) := ⟨rfl, rfl, List.prefix_rfl⟩
theorem jne (r : Byte) : Statement (.jne r) := ⟨rfl, rfl, List.prefix_rfl⟩

end Sys2Proof.Laws.EncodedBytes
end

