-- ==== Sys2Proof/Laws/Step.lean ====
section
/-! SUPPORT. The bytes the decoder sees, and the step, once, with everything it can do. -/

namespace Sys2Proof.Machine

/-! ### The bytes at an address -/

theorem State.bytesAt_three (s : State) {a : Nat} (h : a ≤ 253) :
    s.bytesAt a = [s.mem.read a, s.mem.read (a + 1), s.mem.read (a + 2)] := by
  have : min 3 (Config.memSize - a) = 3 := by simp [Config.memSize]; omega
  simp [State.bytesAt, this, List.range'_succ]

theorem State.bytesAt_two (s : State) : s.bytesAt 254 = [s.mem.read 254, s.mem.read 255] := rfl

theorem State.bytesAt_one (s : State) : s.bytesAt 255 = [s.mem.read 255] := rfl

/-- Below 256 there is a first byte, and the number of bytes is 3 or what is left of the memory. -/
theorem State.bytesAt_cons (s : State) {a : Nat} (h : a < 256) :
    ∃ rest, s.bytesAt a = s.mem.read a :: rest ∧ rest.length = min 2 (255 - a) := by
  rcases (by omega : a ≤ 253 ∨ a = 254 ∨ a = 255) with h | rfl | rfl
  · exact ⟨_, s.bytesAt_three h, by simp; omega⟩
  · exact ⟨_, s.bytesAt_two, rfl⟩
  · exact ⟨_, s.bytesAt_one, rfl⟩

/-- The instruction register has no part in decoding (R31). -/
@[simp] theorem State.setIr_decodeNext (s : State) (b : Byte) : (s.setIr b).decodeNext = s.decodeNext := rfl

/-! ### The step -/

/-- No step is taken when the machine is HALTED (R110). -/
theorem step_halted {s : State} (h : s.run = .halted) : step s = .fault .halted := by
  simp [step, h]

/-- No step is taken when the machine is FAULTED (R110). -/
theorem step_faulted {s : State} (h : s.run = .faulted) : step s = .fault .faulted := by
  simp [step, h]

/-- A RUNNING machine whose program counter is above 255 faults at the fetch (R112). -/
theorem step_fetch_fault {s : State} (h : s.run = .running) (hp : 256 ≤ s.pc.toNat) :
    step s = .next (s.raise (.outOfRangeAddress s.pc.toNat)) := by
  have : ¬ s.pc.toNat < 256 := by omega
  simp [step, h, State.fetch_eq, this]

/-- A RUNNING machine whose program counter addresses a cell fetches it and decodes (R112, R113). -/
theorem step_fetched {s : State} (h : s.run = .running) (hp : s.pc.toNat < 256) :
    step s =
      match s.decodeNext with
      | .error e => .next ((s.setIr (s.mem.read s.pc.toNat)).raise e)
      | .ok i => exec i (s.setIr (s.mem.read s.pc.toNat)) := by
  cases hd : s.decodeNext <;> simp [step, h, State.fetch_eq, hp, hd]

/-- Only a RUNNING machine steps: everything a step can be. -/
theorem step_eq_next {s t : State} (h : step s = .next t) :
    s.run = .running ∧
      ((256 ≤ s.pc.toNat ∧ t = s.raise (.outOfRangeAddress s.pc.toNat)) ∨
       (s.pc.toNat < 256 ∧ ∃ e, s.decodeNext = .error e ∧ t = (s.setIr (s.mem.read s.pc.toNat)).raise e) ∨
       (s.pc.toNat < 256 ∧ ∃ i, s.decodeNext = .ok i ∧ exec i (s.setIr (s.mem.read s.pc.toNat)) = .next t)) := by
  cases hr : s.run with
  | halted => rw [step_halted hr] at h; cases h
  | faulted => rw [step_faulted hr] at h; cases h
  | running =>
    refine ⟨rfl, ?_⟩
    rcases Nat.lt_or_ge s.pc.toNat 256 with hp | hp
    · rw [step_fetched hr hp] at h
      cases hd : s.decodeNext with
      | error e => rw [hd] at h; exact .inr (.inl ⟨hp, e, rfl, by cases h; rfl⟩)
      | ok i => rw [hd] at h; exact .inr (.inr ⟨hp, i, rfl, h⟩)
    · rw [step_fetch_fault hr hp] at h
      exact .inl ⟨hp, by cases h; rfl⟩

end Sys2Proof.Machine
end

