-- ==== Sys2Proof/Tests/Slice0.lean ====
section
/-! SUPPORT. Tests of the model by the spec's own worked examples and vectors (95_test_vectors.md, named at each test), the
well-formedness smoke test, and for each obligation with hypotheses a state and operands that meet them. -/

namespace Sys2Proof.Tests

open Sys2Proof.Machine

/-! ### Helpers -/

/-- The reset state with the bytes stored from `pc` on and `pc` set there. -/
def placed (pc : PcWord) (bs : List Byte) : State :=
  { State.reset with pc := pc, mem := Memory.writeBytes [] pc.toNat bs }

/-- The next state of a step, if there is one. -/
def after (s : State) : Option State :=
  match step s with
  | .next t => some t
  | _ => none

/-- What a fault leaves for the host to read, with the program counter (R116). -/
def diagnostic (t : State) : RunState × BitVec 3 × BitVec 9 × Byte × PcWord :=
  (t.run, t.fcause, t.finfo, t.ir, t.pc)

/-! ### Well-formedness: an ill-formed term for each check -/

theorem test_wf_ldi : Instr.wf (.ldi 8 0) = false ∧ Instr.wf (.ldi 7 255) = true := by decide
theorem test_wf_one_register :
    [Instr.prn 8, .push 8, .pop 8, .call 8, .jmp 8, .jeq 8, .jne 255].all (fun i => !i.wf) = true := by decide
theorem test_wf_first_of_two : [Instr.add 8 0, .mul 8 0, .cmp 8 0].all (fun i => !i.wf) = true := by decide
theorem test_wf_second_of_two : [Instr.add 0 8, .mul 0 8, .cmp 7 8].all (fun i => !i.wf) = true := by decide

/-! ### Decoding: words written out from R82 and R85 -/

theorem test_decode_hlt : decode [0b00000001] = .ok (.hlt, []) := rfl
theorem test_decode_ldi : decode [0b10000010, 0b00000111, 0b11110000] = .ok (.ldi 7 0xF0, []) := rfl
theorem test_decode_prn : decode [0b01000111, 0b00000010] = .ok (.prn 2, []) := rfl
theorem test_decode_add : decode [0b10100000, 0b00000101, 0b00000110] = .ok (.add 5 6, []) := rfl
theorem test_decode_mul : decode [0b10100010, 0b00000011, 0b00000100] = .ok (.mul 3 4, []) := rfl
theorem test_decode_push : decode [0b01000101, 0b00000111] = .ok (.push 7, []) := rfl
theorem test_decode_pop : decode [0b01000110, 0b00000001] = .ok (.pop 1, []) := rfl
theorem test_decode_call : decode [0b01010000, 0b00000110] = .ok (.call 6, []) := rfl
theorem test_decode_ret : decode [0b00010001] = .ok (.ret, []) := rfl
theorem test_decode_cmp : decode [0b10100111, 0b00000000, 0b00000111] = .ok (.cmp 0 7, []) := rfl
theorem test_decode_jmp : decode [0b01010100, 0b00000101] = .ok (.jmp 5, []) := rfl
theorem test_decode_jeq : decode [0b01010101, 0b00000100] = .ok (.jeq 4, []) := rfl
theorem test_decode_jne : decode [0b01010110, 0b00000011] = .ok (.jne 3, []) := rfl

/-- V121, V123, V124: an op field with another count field is no instruction. -/
theorem test_decode_unknown :
    decode [0x41, 1] = .error (.unknownOpcode 0x41) ∧ decode [0xC1, 1, 2] = .error (.unknownOpcode 0xC1) ∧
    decode [0x02, 1, 2] = .error (.unknownOpcode 0x02) := ⟨rfl, rfl, rfl⟩

/-- R83, V30: operand 0 is reported first; LDI's immediate is not a register. -/
theorem test_decode_register :
    decode [0xA0, 8, 9] = .error (.invalidRegister 8) ∧ decode [0xA0, 7, 9] = .error (.invalidRegister 9) ∧
    decode [0x82, 7, 9] = .ok (.ldi 7 9, []) := ⟨rfl, rfl, rfl⟩

/-- The table word of LDI with its operand bytes zero, and one with them given. -/
theorem test_decode_table_word :
    decodeTableWord 8 0x82 = some (.ldi 0 0) ∧ decodeTableWord 24 0x080382 = some (.ldi 3 8) := by decide

/-- A table word placed at the reset state is the first instruction to run. -/
theorem test_fetch_word : (after (State.reset.withFetchWord 24 0x080382)).map (fun t => (t.reg 3, t.pc)) = some (8, 3) := by
  decide

/-! ### One step of each instruction (the vectors of 95_test_vectors.md) -/

theorem test_hlt_v2 : (after (placed 0xFF [0x01])).map (fun t => (t.run, t.pc)) = some (.halted, 0x100) := by decide
theorem test_ldi_v5 : (after (placed 0 [0x82, 7, 0])).map (fun t => (t.reg 7, t.pc)) = some (0, 3) := by decide
theorem test_ldi_v9 :
    (after (placed 0xFE [0x82, 1])).map diagnostic = some (.faulted, 3, 0x100, 0x82, 0xFE) := by decide
theorem test_prn_v11 : (after (placed 0 [0x47, 7])).map (fun t => (t.out, t.pc)) = some ([244], 2) := by decide
theorem test_prn_v13 :
    (after (placed 0 [0x47, 0x10])).map diagnostic = some (.faulted, 4, 0x010, 0x47, 0) := by decide
theorem test_add_v20 :
    (after (((placed 0 [0xA0, 0, 1]).setReg 0 200).setReg 1 100)).map (fun t => (t.reg 0, t.reg 1)) = some (44, 100) := by
  decide
theorem test_add_v24 : (after ((placed 0 [0xA0, 2, 2]).setReg 2 0x90)).map (fun t => (t.reg 2, t.pc)) = some (0x20, 3) := by
  decide
theorem test_mul_v33 :
    (after (((placed 0 [0xA2, 0, 1]).setReg 0 255).setReg 1 255)).map (fun t => (t.reg 0, t.fl)) = some (1, 0) := by decide
theorem test_mul_v34 :
    (after (((placed 0 [0xA2, 0, 1]).setReg 0 200).setReg 1 3)).map (fun t => (t.reg 0, t.reg 1)) = some (88, 3) := by
  decide
theorem test_cmp_v41 :
    (after ((((placed 0 [0xA7, 0, 1]).setReg 0 5).setReg 1 6).setFl 1)).map (fun t => t.fl) = some 0x04 := by decide
theorem test_cmp_v42 :
    (after (((placed 0 [0xA7, 0, 1]).setReg 0 0xFF).setReg 1 1)).map (fun t => t.fl) = some 0x02 := by decide
theorem test_push_v51 :
    (after (placed 0 [0x45, 7])).map (fun t => (t.reg 7, t.mem.read 0xF3)) = some (0xF3, 0xF3) := by decide
theorem test_push_v53 :
    (after ((placed 0x10 [0x45, 0]).setReg 7 0)).map diagnostic = some (.faulted, 3, 0x1FF, 0x45, 0x10) := by decide
theorem test_pop_v56 :
    (after (((placed 0 [0x46, 2]).setReg 7 0xF3).setCell 0xF3 0xC8)).map (fun t => (t.reg 2, t.reg 7)) =
      some (0xC8, 0xF4) := by decide
theorem test_pop_v62 :
    (after (((placed 0 [0x46, 7]).setReg 7 0xFF).setCell 0xFF 3)).map (fun t => (t.reg 7, t.pc)) = some (4, 2) := by decide
theorem test_call_v71 :
    (after (placed 8 [0x50, 7])).map (fun t => (t.reg 7, t.mem.read 0xF3, t.pc)) = some (0xF3, 0x0A, 0xF3) := by decide
theorem test_call_v74 :
    (after (((placed 0xFE [0x50, 1]).setReg 1 0x20).setReg 7 0)).map diagnostic =
      some (.faulted, 3, 0x100, 0x50, 0xFE) := by decide
theorem test_ret_v78 :
    (after (((placed 0x12 [0x11]).setReg 7 0xF2).setCell 0xF2 0x0A)).map (fun t => (t.pc, t.reg 7)) =
      some (0x0A, 0xF3) := by decide
theorem test_ret_v80 :
    (after (((placed 0x12 [0x11]).setReg 7 0xFF).setCell 0xFF 0x33)).map diagnostic =
      some (.faulted, 3, 0x100, 0x11, 0x12) := by decide
theorem test_jmp_v84 : (after (placed 0x30 [0x54, 7])).map (fun t => t.pc) = some 0xF4 := by decide
theorem test_jeq_v91 :
    (after (((placed 0x10 [0x55, 2]).setReg 2 0x20).setFl 1)).map (fun t => t.pc) = some 0x20 := by decide
theorem test_jeq_v110 :
    (after ((placed 0x10 [0x55, 8]).setFl 2)).map diagnostic = some (.faulted, 4, 0x008, 0x55, 0x10) := by decide
theorem test_jne_v100 : (after ((placed 0x10 [0x56, 2]).setReg 2 0x20)).map (fun t => t.pc) = some 0x20 := by decide
theorem test_jne_v111 : (after ((placed 0xFE [0x56, 0]).setFl 1)).map (fun t => t.pc) = some 0x100 := by decide

/-! ### Fetch and decode faults -/

theorem test_unknown_v130 : (after (placed 0xFF [0xC7])).map diagnostic = some (.faulted, 1, 0x0C7, 0xC7, 0xFF) := by
  decide
theorem test_fetch_v131 : (after (placed 0x100 [])).map diagnostic = some (.faulted, 3, 0x100, 0, 0x100) := by decide

/-! ### Witnesses: the hypotheses of each obligation can be met -/

/-- A state that fetches an instruction byte, given by what is stored. -/
theorem fetches_of {s : State} {b : Byte} (h : (s.run, decide (s.pc.toNat < 256), s.byteAtPc) = (.running, true, b)) :
    s.Fetches b := by
  simp only [Prod.mk.injEq, decide_eq_true_eq] at h
  exact h

theorem witness_decodeOfEncode : (Instr.cmp 7 0).WellFormed ∧ (Instr.ldi 7 255).WellFormed ∧ Instr.ret.WellFormed := by
  decide
theorem witness_encodeOfDecode : decode [0xA7, 7, 0, 0xFF] = .ok (.cmp 7 0, [0xFF]) := rfl
theorem witness_topTwoBitsCountOperands :
    (encode (.add 1 2)).head? = some 0xA0 ∧ (encode (.add 3 4)).head? = some 0xA0 := by decide
/-- The bytes of LDI in the last three cells. -/
theorem witness_stepRunsDecodedInstruction :
    (placed 253 [0x82, 1, 0x55]).run = .running ∧ (placed 253 [0x82, 1, 0x55]).pc.toNat < 256 ∧
    decode ((placed 253 [0x82, 1, 0x55]).bytesAt 253) = .ok (.ldi 1 0x55, []) := ⟨rfl, by decide, rfl⟩
theorem witness_stepRunsEncodedInstruction :
    (Instr.ldi 1 0x55).WellFormed ∧ (placed 253 [0x82, 1, 0x55]).pc.toNat + (Instr.ldi 1 0x55).length = 256 ∧
    (encode (.ldi 1 0x55)).mapIdx (fun k _ => (placed 253 [0x82, 1, 0x55]).mem.read (253 + k)) = encode (.ldi 1 0x55) := by
  decide
theorem witness_fetchReadsTheByteAtPc :
    (placed 256 []).run = .running ∧ 255 < (placed 256 []).pc.toNat ∧ (placed 255 [1]).pc.toNat ≤ 255 := by decide
theorem witness_unknownOpcodeFaults :
    (placed 255 [0xC7]).Fetches 0xC7 ∧ (0xC7 : Byte) ∉ legalFirstBytes ∧ (0 : Byte) ∉ legalFirstBytes :=
  ⟨fetches_of rfl, by decide, by decide⟩
/-- One witness for each of the three clauses, at the highest address that has room. -/
theorem witness_registerOperandAboveSevenFaults :
    ((placed 254 [0x55, 8]).Fetches 0x55 ∧ 7 < ((placed 254 [0x55, 8]).mem.read 255).toNat) ∧
    ((placed 253 [0x82, 8, 0]).Fetches 0x82 ∧ 7 < ((placed 253 [0x82, 8, 0]).mem.read 254).toNat) ∧
    ((placed 253 [0xA7, 7, 8]).Fetches 0xA7 ∧ ((placed 253 [0xA7, 7, 8]).mem.read 254).toNat ≤ 7 ∧
      7 < ((placed 253 [0xA7, 7, 8]).mem.read 255).toNat) :=
  ⟨⟨fetches_of rfl, by decide⟩, ⟨fetches_of rfl, by decide⟩, ⟨fetches_of rfl, by decide, by decide⟩⟩
/-- A completed step for each branch: a jump, a RET, and an instruction that advances to 256. -/
theorem witness_pcAdvancesUnlessWritten :
    ((after (placed 0 [0x54, 7])).map (·.run) = some .running ∧ (placed 0 [0x54, 7]).Fetches 0x54) ∧
    ((after (placed 0 [0x11])).map (·.run) = some .running ∧ (placed 0 [0x11]).Fetches 0x11) ∧
    ((after (placed 254 [0x47, 2])).map (·.run) = some .running ∧ (placed 254 [0x47, 2]).Fetches 0x47) :=
  ⟨⟨by decide, fetches_of rfl⟩, ⟨by decide, fetches_of rfl⟩, ⟨by decide, fetches_of rfl⟩⟩
theorem witness_noStepOnceStopped :
    (State.reset.setRun .halted).run = .halted ∧ (State.reset.setRun .faulted).run = .faulted := by decide
theorem witness_runningMachineAlwaysSteps : State.reset.run = .running := rfl
theorem witness_onlyHltHalts : (after (placed 255 [0x01])).map (·.run) = some .halted ∧ (after State.reset).isSome := by
  decide
/-- A fault of the fetch, and a fault after it. -/
theorem witness_faultsArePrecise :
    (after (placed 256 [])).map (·.run) = some .faulted ∧ (after (placed 255 [0x47])).map (·.run) = some .faulted := by decide
/-- A register operand byte above 7, at the boundary, for every statement that has that hypothesis. -/
theorem witness_registerAboveSeven : 7 < (8 : Byte).toNat ∧ 7 < (255 : Byte).toNat := by decide
/-- Each instruction with operands, at the lowest address whose last operand byte lies beyond 255. -/
theorem witness_operandFetchFaults (op : Opcode) (h : op.format.operandCount ≠ 0) :
    ∃ s : State, s.Fetches op.byte ∧ s.pc.toNat + op.format.operandCount = 256 := by
  cases op with
  | hlt | ret => exact absurd rfl h
  | ldi => exact ⟨placed 254 [0x82], fetches_of rfl, by decide⟩
  | prn => exact ⟨placed 255 [0x47], fetches_of rfl, by decide⟩
  | add => exact ⟨placed 254 [0xA0], fetches_of rfl, by decide⟩
  | mul => exact ⟨placed 254 [0xA2], fetches_of rfl, by decide⟩
  | push => exact ⟨placed 255 [0x45], fetches_of rfl, by decide⟩
  | pop => exact ⟨placed 255 [0x46], fetches_of rfl, by decide⟩
  | call => exact ⟨placed 255 [0x50], fetches_of rfl, by decide⟩
  | cmp => exact ⟨placed 254 [0xA7], fetches_of rfl, by decide⟩
  | jmp => exact ⟨placed 255 [0x54], fetches_of rfl, by decide⟩
  | jeq => exact ⟨placed 255 [0x55], fetches_of rfl, by decide⟩
  | jne => exact ⟨placed 255 [0x56], fetches_of rfl, by decide⟩
/-- An address from which the program counter advances to 256. -/
theorem witness_pcAdvances : (placed 253 [0xA0]).pc.toNat < 256 ∧ (placed 255 [0x01]).pc.toNat < 256 := by decide
/-- The comparison's three outcomes, and equal registers. -/
theorem witness_cmpSetsExactlyOneFlag :
    (State.reset.reg 7).toNat > (State.reset.reg 0).toNat ∧ (State.reset.reg 0).toNat < (State.reset.reg 7).toNat ∧
    State.reset.reg 0 = State.reset.reg 1 := by decide
/-- Stack pointer 1 and 0, memory in canonical form. -/
theorem witness_pushStoresBelowStackPointer :
    ((State.reset.setReg 7 1).reg 7).toNat = 1 ∧ ((State.reset.setReg 7 0).reg 7).toNat = 0 ∧ State.reset.mem.wf := by decide
/-- Stack pointer 254 and 255, and a top of stack of 254 and of 255. -/
theorem witness_popLoadsFromStackPointer :
    ((State.reset.setReg 7 254).reg 7).toNat ≠ 255 ∧ ((State.reset.setReg 7 255).reg 7).toNat = 255 ∧
    ((State.reset.setCell 0xF4 254).mem.read (State.reset.reg 7).toNat).toNat ≠ 255 ∧
    ((State.reset.setCell 0xF4 255).mem.read (State.reset.reg 7).toNat).toNat = 255 ∧
    (0 : RegIdx) ≠ 7 ∧ (State.reset.reg 7).toNat ≠ 0 ∧ State.reset.mem.wf := by decide
/-- The last address a CALL completes at and the first it does not, with stack pointer 1 and 0. -/
theorem witness_callPushesReturnAddressAndJumps :
    (placed 253 [0x50, 1]).pc.toNat ≤ 253 ∧ 253 < (placed 254 [0x50, 1]).pc.toNat ∧
    (((placed 253 [0x50, 1]).setReg 7 1).reg 7).toNat ≠ 0 ∧ (((placed 253 [0x50, 1]).setReg 7 0).reg 7).toNat = 0 ∧
    (placed 253 [0x50, 1]).mem.wf := by decide
/-- A CALL that completes, and the state it leaves as the state the RET starts from. -/
theorem witness_retPopsIntoPc :
    ((State.reset.setReg 7 254).reg 7).toNat ≠ 255 ∧ ((State.reset.setReg 7 255).reg 7).toNat = 255 ∧
    ∃ t, exec (.call 1) (placed 8 [0x50, 1]) = .next t ∧ (t.reg 7).toNat = 0xF3 ∧ (t.mem.read 0xF3) = 0x0A :=
  ⟨by decide, by decide, _, rfl, by decide, by decide⟩
theorem witness_conditionalJumps :
    (State.reset.setFl 1).fl.getLsbD 0 = true ∧ (State.reset.setFl 2).fl.getLsbD 0 = false := by decide
theorem witness_stepKeepsInvariant :
    (placed 253 [0x82, 1, 0x55]).Inv ∧ (after (placed 253 [0x82, 1, 0x55])).isSome := by decide
theorem witness_onlyCmpWritesFlags : (after (placed 0 [0xA7, 0, 1])).map (·.fl) = some 1 ∧ (placed 0 [0xA7, 0, 1]).fl = 0 := by
  decide
/-- A JEQ whose `fl` may differ above bit 0, and an instruction for which it may differ anywhere. -/
theorem witness_flagsReadOnlyAsBitZeroByJumps :
    (placed 0 [0x55, 1]).run = .running ∧ (placed 0 [0x55, 1]).byteAtPc = 0x55 ∧
    (0x02 : Byte).getLsbD 0 = (placed 0 [0x55, 1]).fl.getLsbD 0 ∧ (placed 0 [0xA7, 0, 1]).byteAtPc = 0xA7 := by decide
theorem witness_onlyPrnWritesOutput : (after (placed 0 [0x47, 7])).map (·.out) = some [244] := by decide
theorem witness_onlyPushAndCallWriteMemory :
    (after (placed 0 [0x45, 7])).map (fun t => t.mem.read 0xF3) = some 0xF3 ∧ (placed 0 [0x45, 7]).mem.read 0xF3 = 0 := by
  decide
theorem witness_memoryReadsBackWhatWasWritten :
    State.reset.mem.wf ∧ ((0 : Int) ≤ 0 ∧ (0 : Int) ≤ 255) ∧ ((0 : Int) ≤ 255 ∧ (255 : Int) ≤ 255) := by decide
theorem witness_outOfRangeAddressesFault : ((-1 : Int) < 0 ∨ 255 < (-1 : Int)) ∧ ((256 : Int) < 0 ∨ 255 < (256 : Int)) := by
  decide
/-- An image of the full length, one byte too many, and a machine past the end of the empty image. -/
theorem witness_loadedImageLiesFromAddressZero :
    (List.replicate 256 (1 : Byte)).length ≤ 256 ∧ 256 < (List.replicate 257 (1 : Byte)).length ∧
    State.start [] = some State.reset ∧ State.reset.run = .running ∧ ([] : List Byte).length ≤ State.reset.pc.toNat ∧
    State.reset.pc.toNat < 256 :=
  ⟨by rw [List.length_replicate], by rw [List.length_replicate]; omega, rfl, rfl, Nat.zero_le _, by decide⟩

end Sys2Proof.Tests
end

section
/-! The two fields of the instruction byte: bits 7:6 count the operand bytes, bits 5:0 identify the operation (R80). -/

namespace Sys2Proof

/-- The lemmas of `Laws.EncodedBytes`, one per constructor, as one statement about every instruction. -/
theorem encodedBytes_statement : ∀ i : Instr, Laws.EncodedBytes.Statement i
  | .hlt => Laws.EncodedBytes.hlt
  | .ldi r imm => Laws.EncodedBytes.ldi r imm
  | .prn r => Laws.EncodedBytes.prn r
  | .add a b => Laws.EncodedBytes.add a b
  | .mul a b => Laws.EncodedBytes.mul a b
  | .push r => Laws.EncodedBytes.push r
  | .pop r => Laws.EncodedBytes.pop r
  | .call r => Laws.EncodedBytes.call r
  | .ret => Laws.EncodedBytes.ret
  | .cmp a b => Laws.EncodedBytes.cmp a b
  | .jmp r => Laws.EncodedBytes.jmp r
  | .jeq r => Laws.EncodedBytes.jeq r
  | .jne r => Laws.EncodedBytes.jne r

@[simp] theorem encode_length (i : Instr) : (encode i).length = i.length :=
  (encodedBytes_statement i).1

@[simp] theorem encode_head? (i : Instr) : (encode i).head? = some i.opcode.byte :=
  (encodedBytes_statement i).2.1

theorem encode_eq_cons_tail (i : Instr) : encode i = i.opcode.byte :: (encode i).tail :=
  List.eq_cons_of_mem_head? (encode_head? i)

@[simp] theorem encode_tail_length (i : Instr) : (encode i).tail.length = i.opcode.format.operandCount := by
  rw [List.length_tail, encode_length, Instr.length, Nat.add_sub_cancel_left]

theorem Format.operandCount_le_two (f : Format) : f.operandCount ≤ 2 := by
  cases f <;> decide

/-- Bits 7:6 of the instruction byte are the operand count (R80). -/
theorem Opcode.byte_toNat_div_64 (op : Opcode) : op.byte.toNat / 64 = op.format.operandCount := by
  cases op <;> rfl

/-- The first opcode of the opcode map whose instruction byte has the low six bits `n`. -/
def opcodeOfLowBits? (n : Nat) : Option Opcode := opcodeTable.find? fun op => op.byte.toNat % 64 == n

/-- Bits 5:0 alone find each opcode: no earlier row of the opcode map has the same ones. -/
@[simp] theorem opcodeOfLowBits?_byte (op : Opcode) : opcodeOfLowBits? (op.byte.toNat % 64) = some op := by
  cases op <;> rfl

theorem Opcode.eq_of_byte_mod_64_eq {p q : Opcode} (h : p.byte.toNat % 64 = q.byte.toNat % 64) : p = q :=
  Option.some.inj <| calc
    some p = opcodeOfLowBits? (p.byte.toNat % 64) := (opcodeOfLowBits?_byte p).symm
    _ = opcodeOfLowBits? (q.byte.toNat % 64) := by rw [h]
    _ = some q := opcodeOfLowBits?_byte q

/-- Settles O5: the first byte of an encoding is its opcode's byte, whose top two bits are the format's operand count and whose
low six bits determine the opcode. -/
theorem topTwoBitsCountOperands : Obligations.TopTwoBitsCountOperands := by
  refine ⟨fun i => ⟨i.opcode.byte, (encode i).tail, encode_eq_cons_tail i, ?_, ?_⟩, fun i j b c hb hc hlow => ?_⟩
  · rw [encode_tail_length, Opcode.byte_toNat_div_64]
  · rw [encode_tail_length]
    exact Format.operandCount_le_two _
  · obtain rfl : i.opcode.byte = b := Option.some.inj (encode_head? i ▸ hb)
    obtain rfl : j.opcode.byte = c := Option.some.inj (encode_head? j ▸ hc)
    exact Opcode.eq_of_byte_mod_64_eq hlow

end Sys2Proof
end

section
/-! What an instruction leaves: the moved program counter, the unchanged registers, a raised fault (R114, R188). -/

namespace Sys2Proof.Machine

/-- An advance past an operand-carrying instruction fits the 9-bit program counter from every cell (R26). -/
theorem pcAdvances_advance {s t : State} (n : Nat) (hpc : t.pc = s.pc) (hn : n ≤ 2) :
    PcAdvances (1 + n) s (t.advance n) := by
  intro h
  rw [State.advance_pc, BitVec.toNat_ofNat, hpc, Nat.mod_eq_of_lt (by omega), Nat.add_assoc]

theorem sameRegsExcept_setReg (s : State) (r : RegIdx) (v : Byte) : SameRegsExcept [r] s (s.setReg r v) :=
  fun _ hi => State.setReg_reg_ne s v (List.ne_of_not_mem_cons hi)

/-- Raising a fault after the fetch has written `ir` is precise for the state before the fetch (R188). -/
theorem faultedWith_raise_setIr (e : FaultKind) (s : State) (b : Byte) :
    FaultedWith e.code e.info s ((s.setIr b).raise e) :=
  ⟨rfl, rfl, rfl, fun _ _ => rfl, rfl, rfl, fun _ => rfl, rfl⟩

theorem faultedWith_raise (e : FaultKind) (s : State) : FaultedWith e.code e.info s (s.raise e) :=
  faultedWith_raise_setIr e s s.ir

/-- The first register operand byte of an instruction is above 7: InvalidRegister with that byte (R83, R184). -/
theorem execFaults_illegal_first {i : Instr} {b : Byte} (s : State) (h : i.registerBytes.head? = some b)
    (hb : 7 < b.toNat) : ExecFaults i 4 (b.setWidth 9) s :=
  ⟨_, exec_illegal_first s h hb, faultedWith_raise (.invalidRegister b) s, rfl⟩

/-- A fault of the decoding, after a fetch that read `b`, is the fault of the step (R111, R113). -/
theorem stepFaults_of_decodeNext_error {s : State} {b : Byte} {e : FaultKind} (hf : s.Fetches b)
    (hd : s.decodeNext = .error e) : StepFaults e.code e.info b s := by
  obtain ⟨hrun, hpc, rfl⟩ := hf
  refine ⟨(s.setIr s.byteAtPc).raise e, ?_, faultedWith_raise_setIr e s _, rfl⟩
  rw [step_fetched hrun hpc, hd]
  rfl

end Sys2Proof.Machine
end

section
/-! The operand fetch: an instruction with too few bytes after its first one is missing a byte (R113, R183). -/

namespace Sys2Proof

@[simp] theorem decode_byte_cons (op : Opcode) (bs : List Byte) : decode (op.byte :: bs) = readOperands op bs := by
  rw [decode, opcode?_byte]

theorem readR_short {mk : Byte → Instr} {bs : List Byte} (h : bs.length < 1) :
    readR mk bs = .error .missingByte := by
  obtain rfl := List.length_eq_zero_iff.1 (Nat.lt_one_iff.1 h)
  rfl

theorem readRR_short {mk : Byte → Byte → Instr} : {bs : List Byte} → bs.length < 2 →
    readRR mk bs = .error .missingByte
  | [], _ | [_], _ => rfl
  | _ :: _ :: _, h => absurd h (by simp)

theorem readRI_short {mk : Byte → Byte → Instr} : {bs : List Byte} → bs.length < 2 →
    readRI mk bs = .error .missingByte
  | [], _ | [_], _ => rfl
  | _ :: _ :: _, h => absurd h (by simp)

/-- Fewer bytes than the format has operands: whatever they are, a byte is missing (R187: the operand fetch comes before the
register check). -/
theorem readOperands_short {op : Opcode} {bs : List Byte} (h : bs.length < op.format.operandCount) :
    readOperands op bs = .error .missingByte := by
  cases op with
  | hlt | ret => exact absurd h (Nat.not_lt_zero _)
  | prn | push | pop | call | jmp | jeq | jne => exact readR_short h
  | add | mul | cmp => exact readRR_short h
  | ldi => exact readRI_short h

namespace Machine

/-- Each opcode's operand fetch faults when its last operand byte would lie beyond the last cell (R113, R183). -/
theorem operandFetchFaults_byte (op : Opcode) : OperandFetchFaults op.byte op.format.operandCount := by
  intro s hf hlast
  have ⟨_, hpc, hb⟩ := hf
  obtain ⟨rest, hbytes, hlen⟩ := s.bytesAt_cons hpc
  have hshort : rest.length < op.format.operandCount := by omega
  have hdecode : decode (s.bytesAt s.pc.toNat) = .error .missingByte := by
    rw [hbytes, ← State.byteAtPc, hb, decode_byte_cons, readOperands_short hshort]
  have hnext : s.decodeNext = .error (.outOfRangeAddress 256) := by
    rw [State.decodeNext, hdecode]
    rfl
  exact stepFaults_of_decodeNext_error hf hnext

end Machine
end Sys2Proof
end

section
/-! Data movement and output: LDI and PRN (R130, R131). -/

namespace Sys2Proof.Machine

/-- Settles O17: LDI is a register write and an advance, so a PRN of the register emits the byte just written; the faults are
those of the register check and of the operand fetch of its format. -/
theorem ldiLoadsImmediate : Obligations.LdiLoadsImmediate := by
  refine ⟨fun r imm s => ⟨(s.setReg r imm).advance 2, exec_ldi r imm s, ?_⟩,
    fun _ _ s h => execFaults_illegal_first s rfl h, operandFetchFaults_byte .ldi, fun _ _ => rfl⟩
  have hreg : ((s.setReg r imm).advance 2).reg r = imm := State.setReg_reg_same s r imm
  refine ⟨hreg, pcAdvances_advance 2 rfl le_rfl, sameRegsExcept_setReg s r imm, rfl, fun _ => rfl, rfl,
    ⟨rfl, rfl, rfl, rfl⟩, _, exec_prn r _, ?_⟩
  rw [State.advance_out, State.emit_out, hreg, State.advance_out, State.setReg_out]

/-- Settles O18: PRN is an emission and an advance; the faults are those of the register check and of the operand fetch of its
format. -/
theorem prnEmitsRegister : Obligations.PrnEmitsRegister :=
  ⟨fun r s => ⟨_, exec_prn r s, rfl, pcAdvances_advance 1 rfl (by decide), fun _ _ => rfl, rfl, fun _ => rfl,
      ⟨rfl, rfl, rfl, rfl⟩⟩,
    fun _ s h => execFaults_illegal_first s rfl h, operandFetchFaults_byte .prn, fun _ => rfl⟩

end Sys2Proof.Machine
end

section
/-! The ALU: ADD, MUL and CMP (R141, R142, R143), and the conditional jumps that read what CMP wrote (R164, R165). -/

namespace Sys2Proof.Machine

/-- A second register operand byte is above 7 and the first names a register: InvalidRegister with the second (R83, R184). -/
theorem execFaults_illegal_second {i : Instr} {a : RegIdx} {b : Byte} (s : State)
    (h : i.registerBytes = [regByte a, b]) (hb : 7 < b.toNat) : ExecFaults i 4 (b.setWidth 9) s :=
  ⟨_, exec_illegal_second s h hb, faultedWith_raise (.invalidRegister b) s, rfl⟩

/-- What ADD and MUL share: the low 8 bits of the result `n` go into register a, and nothing else but `pc` changes (R144). -/
theorem setReg_ofNat_advance_effect (s : State) (a : RegIdx) (n : Nat) {t : State}
    (ht : t = (s.setReg a (BitVec.ofNat 8 n)).advance 2) :
    (t.reg a).toNat = n % 256 ∧ PcAdvances 3 s t ∧
      SameRegsExcept [a] s t ∧ t.fl = s.fl ∧ SameMemory s t ∧ t.out = s.out ∧ SameControl s t := by
  subst ht
  refine ⟨?_, pcAdvances_advance 2 rfl le_rfl, sameRegsExcept_setReg s a _, rfl, fun _ => rfl, rfl,
    ⟨rfl, rfl, rfl, rfl⟩⟩
  rw [State.advance_reg, State.setReg_reg_same, BitVec.toNat_ofNat]

/-- Settles O19: ADD is the write of the sum's low 8 bits and an advance; the faults are those of the two register checks and of
the operand fetch of its format. -/
theorem addWritesSumMod256 : Obligations.AddWritesSumMod256 :=
  ⟨fun a b s => ⟨_, exec_add a b s, setReg_ofNat_advance_effect s a _ rfl⟩,
    fun _ _ s h => execFaults_illegal_first s rfl h, fun _ _ s h => execFaults_illegal_second s rfl h,
    operandFetchFaults_byte .add, fun _ _ => rfl⟩

/-- Settles O20: MUL is the write of the product's low 8 bits and an advance; the faults are those of the two register checks and
of the operand fetch of its format. -/
theorem mulWritesProductMod256 : Obligations.MulWritesProductMod256 :=
  ⟨fun a b s => ⟨_, exec_mul a b s, setReg_ofNat_advance_effect s a _ rfl⟩,
    fun _ _ s h => execFaults_illegal_first s rfl h, fun _ _ s h => execFaults_illegal_second s rfl h,
    operandFetchFaults_byte .mul, fun _ _ => rfl⟩

/-- The EQUAL bit of a comparison's flags is set exactly for equal operands (R28, R143). -/
theorem cmpFlags_getLsbD_zero {u v : Byte} : (cmpFlags u v).getLsbD 0 = true ↔ u = v := by
  unfold cmpFlags
  split_ifs with hgt hlt
  · exact iff_of_false (by decide) fun h => Nat.ne_of_gt hgt (congrArg BitVec.toNat h)
  · exact iff_of_false (by decide) fun h => Nat.ne_of_lt hlt (congrArg BitVec.toNat h)
  · exact iff_of_true (by decide) (BitVec.eq_of_toNat_eq (by omega))

/-- An 8-bit jump target is held by the program counter as it stands (R160). -/
theorem jumpTo_pc_toNat (s : State) (v : Byte) : (s.jumpTo v).pc.toNat = v.toNat := by
  rw [State.jumpTo_pc, BitVec.toNat_setWidth_of_le (by decide)]

/-- From one state, exactly one of JEQ and JNE is taken: JEQ when the EQUAL flag is set, JNE when it is clear; the other goes on
to the next instruction (R164, R165). -/
theorem exec_jeq_jne_pc (s : State) (r : RegIdx) {P : Prop} [Decidable P] (hP : s.equalFlag = true ↔ P) :
    ∃ u v, exec (.jeq (regByte r)) s = .next u ∧ exec (.jne (regByte r)) s = .next v ∧
      if P then u.pc.toNat = (s.reg r).toNat ∧ PcAdvances 2 s v
      else PcAdvances 2 s u ∧ v.pc.toNat = (s.reg r).toNat := by
  refine ⟨_, _, exec_jeq r s, exec_jne r s, ?_⟩
  have hjump := jumpTo_pc_toNat s (s.reg r)
  have hnext : PcAdvances 2 s (s.advance 1) := pcAdvances_advance 1 rfl (by decide)
  by_cases h : P
  · rw [if_pos h, if_pos (hP.2 h), if_pos (hP.2 h)]
    exact ⟨hjump, hnext⟩
  · rw [if_neg h, if_neg (mt hP.1 h), if_neg (mt hP.1 h)]
    exact ⟨hnext, hjump⟩

/-- Settles O21: CMP is the write of the comparison's flags and an advance, and the EQUAL bit it leaves is the condition of the
jumps after it; the faults are those of the two register checks and of the operand fetch of its format. -/
theorem cmpSetsExactlyOneFlag : Obligations.CmpSetsExactlyOneFlag :=
  ⟨fun a b s => ⟨_, exec_cmp a b s, rfl, pcAdvances_advance 2 rfl le_rfl, fun _ _ => rfl, fun _ => rfl, rfl,
      ⟨rfl, rfl, rfl, rfl⟩, fun r => exec_jeq_jne_pc _ r cmpFlags_getLsbD_zero⟩,
    fun _ _ s h => execFaults_illegal_first s rfl h, fun _ _ s h => execFaults_illegal_second s rfl h,
    operandFetchFaults_byte .cmp, fun _ _ => rfl⟩

end Sys2Proof.Machine
end

section
/-! Control transfer: RET, JMP, JEQ and JNE (R162 to R165). -/

namespace Sys2Proof.Machine

/-! ### Jumps -/

/-- A state that differs from `s` at most in `pc` has every other piece of state as `s` has it. -/
theorem frame_of_only_pc {s t : State} (h : { s with pc := t.pc } = t) :
    SameRegsExcept [] s t ∧ t.fl = s.fl ∧ SameMemory s t ∧ t.out = s.out ∧ SameControl s t := by
  rw [← h]
  exact ⟨fun _ _ => rfl, rfl, fun _ => rfl, rfl, rfl, rfl, rfl, rfl⟩

/-- What JEQ and JNE share: under the condition the jump, otherwise the next instruction, and nothing but `pc` changes (R164,
R165). -/
theorem jumpTo_or_advance_effect (s : State) (v : Byte) (c : Prop) [Decidable c] {t : State}
    (ht : t = if c then s.jumpTo v else s.advance 1) :
    (if c then t.pc.toNat = v.toNat else PcAdvances 2 s t) ∧
      SameRegsExcept [] s t ∧ t.fl = s.fl ∧ SameMemory s t ∧ t.out = s.out ∧ SameControl s t := by
  by_cases h : c
  · rw [if_pos h] at ht ⊢
    subst ht
    exact ⟨jumpTo_pc_toNat s v, frame_of_only_pc rfl⟩
  · rw [if_neg h] at ht ⊢
    subst ht
    exact ⟨pcAdvances_advance 1 rfl (by decide), frame_of_only_pc rfl⟩

/-- JNE with its jump as the branch of a clear EQUAL flag (R165). -/
theorem exec_jne_clear (r : RegIdx) (s : State) :
    exec (.jne (regByte r)) s = .next (if s.equalFlag = false then s.jumpTo (s.reg r) else s.advance 1) := by
  rw [exec_jne]
  cases s.equalFlag <;> rfl

/-- Settles O26: JMP is a jump and nothing else; the faults are those of the register check and of the operand fetch of its
format. -/
theorem jmpJumps : Obligations.JmpJumps :=
  ⟨fun r s => ⟨_, exec_jmp r s, jumpTo_pc_toNat s (s.reg r), frame_of_only_pc rfl⟩,
    fun _ s h => execFaults_illegal_first s rfl h, operandFetchFaults_byte .jmp, fun _ => rfl⟩

/-- Settles O27: JEQ is the conditional jump on a set EQUAL flag; the register check and the operand fetch of its format come
before the condition. -/
theorem jeqJumpsWhenEqual : Obligations.JeqJumpsWhenEqual :=
  ⟨fun r s => ⟨_, exec_jeq r s, jumpTo_or_advance_effect s (s.reg r) (s.equalFlag = true) rfl⟩,
    fun _ s h => execFaults_illegal_first s rfl h, operandFetchFaults_byte .jeq, fun _ => rfl⟩

/-- Settles O28: JNE is the conditional jump on a clear EQUAL flag; the register check and the operand fetch of its format come
before the condition. -/
theorem jneJumpsWhenNotEqual : Obligations.JneJumpsWhenNotEqual :=
  ⟨fun r s => ⟨_, exec_jne_clear r s, jumpTo_or_advance_effect s (s.reg r) (s.equalFlag = false) rfl⟩,
    fun _ s h => execFaults_illegal_first s rfl h, operandFetchFaults_byte .jne, fun _ => rfl⟩

/-! ### RET, alone and after a CALL -/

/-- RET from a stack pointer that can be incremented (R162). -/
theorem exec_ret_pops {s : State} (hsp : (s.reg 7).toNat ≠ 255) :
    exec .ret s = .next ((s.setReg 7 (s.reg 7 + 1)).jumpTo (s.mem.read (s.reg 7).toNat)) := by
  rw [exec_ret, if_neg hsp]

/-- CALL where both the return address and the decremented stack pointer fit a byte (R161). -/
theorem exec_call_pushes (r : RegIdx) {s : State} (hpc : s.pc.toNat ≤ 253) (hsp : (s.reg 7).toNat ≠ 0) :
    exec (.call (regByte r)) s =
      .next (((s.setReg 7 (s.reg 7 - 1)).setCell ((s.reg 7).toNat - 1) (BitVec.ofNat 8 (s.pc.toNat + 2))).jumpTo
        ((s.setReg 7 (s.reg 7 - 1)).reg r)) := by
  rw [exec_call, if_neg (Nat.not_lt.2 hpc), if_neg hsp]

/-- A completed CALL leaves the stack pointer one lower, and the cell it then addresses holds the return address. -/
theorem call_leaves_returnAddress {r : RegIdx} {s t : State} (hpc : s.pc.toNat ≤ 253) (hsp : (s.reg 7).toNat ≠ 0)
    (hmem : s.mem.wf) (hcall : exec (.call (regByte r)) s = .next t) :
    t.reg 7 = s.reg 7 - 1 ∧ (t.mem.read (t.reg 7).toNat).toNat = s.pc.toNat + 2 := by
  rw [exec_call_pushes r hpc hsp] at hcall
  cases hcall
  have htop : (s.setReg 7 (s.reg 7 - 1)).reg 7 = s.reg 7 - 1 := State.setReg_reg_same s 7 _
  refine ⟨htop, ?_⟩
  rw [State.jumpTo_reg, State.setCell_reg, htop, byte_pred_toNat hsp, State.jumpTo_mem, State.setCell_mem,
    State.setReg_mem, Memory.read_write_same hmem, BitVec.toNat_ofNat]
  omega

/-- Settles O25: RET is the increment of the stack pointer and a jump to the popped byte; after a CALL that byte is the return
address, and the increment undoes the CALL's decrement. -/
theorem retPopsIntoPc : Obligations.RetPopsIntoPc := by
  refine ⟨fun s hsp => ⟨_, exec_ret_pops hsp, jumpTo_pc_toNat _ _, ?_, sameRegsExcept_setReg s 7 _, rfl, fun _ => rfl, rfl,
      ⟨rfl, rfl, rfl, rfl⟩⟩,
    fun s hsp => ⟨_, (exec_ret s).trans (by rw [if_pos hsp]), faultedWith_raise (.outOfRangeAddress 256) s, rfl⟩,
    rfl, fun r s t u hpc hsp hmem hcall hu hcell => ?_⟩
  · rw [State.jumpTo_reg, State.setReg_reg_same, byte_succ_toNat hsp]
  · obtain ⟨hdown, haddr⟩ := call_leaves_returnAddress hpc hsp hmem hcall
    have hu255 : (u.reg 7).toNat ≠ 255 := by
      have := (s.reg 7).isLt
      rw [hu, hdown, byte_pred_toNat hsp]
      omega
    refine ⟨_, exec_ret_pops hu255, ?_, ?_⟩
    · rw [jumpTo_pc_toNat, hu, hcell, haddr]
    · rw [State.jumpTo_reg, State.setReg_reg_same, hu, hdown, BitVec.sub_add_cancel]

end Sys2Proof.Machine
end

section
/-! The unknown opcode: a fetched byte outside the opcode map (R87, R181). -/

namespace Sys2Proof.Machine

/-- R89 lists the byte of every row of the opcode map (R85). -/
theorem byte_mem_legalFirstBytes (op : Opcode) : op.byte ∈ legalFirstBytes := by
  cases op <;> decide

/-- A byte outside R89's list is the byte of no opcode (R86, R87). -/
theorem opcode?_eq_none_of_unlisted {b : Byte} (h : b ∉ legalFirstBytes) : opcode? b = none := by
  refine Option.eq_none_iff_forall_ne_some.2 fun op hop => h ?_
  rw [opcode?_eq_some hop]
  exact byte_mem_legalFirstBytes op

/-- An unlisted first byte is rejected before any byte after it is looked at (R87, R187). -/
theorem decode_unlisted_cons {b : Byte} (h : b ∉ legalFirstBytes) (rest : List Byte) :
    decode (b :: rest) = .error (.unknownOpcode b) := by
  rw [decode, opcode?_eq_none_of_unlisted h]

/-- Settles O9: a fetch succeeds in the last cell as in any other, so the decoder has a first byte; it rejects that byte whatever
follows, and the rejection is the fault of the step. -/
theorem unknownOpcodeFaults : Obligations.UnknownOpcodeFaults := by
  intro s b hf hb
  have ⟨_, hpc, hbyte⟩ := hf
  obtain ⟨rest, hbytes, _⟩ := s.bytesAt_cons hpc
  have hnext : s.decodeNext = .error (.unknownOpcode b) := by
    rw [State.decodeNext, hbytes, ← State.byteAtPc, hbyte, decode_unlisted_cons hb]
    rfl
  exact stepFaults_of_decodeNext_error hf hnext

end Sys2Proof.Machine
end

section
/-! The decoder and the encoder undo each other: what is accepted is exactly an encoding, what is rejected names its reason (R82 to
R87). -/

namespace Sys2Proof

theorem wellFormed_iff {i : Instr} : i.WellFormed ↔ ∀ b ∈ i.registerBytes, legalReg b = true :=
  List.all_eq_true

/-! ### Reading the operands of one format -/

theorem readR_cons {o0 : Byte} (h : legalReg o0 = true) (mk : Byte → Instr) (rest : List Byte) :
    readR mk (o0 :: rest) = .ok (mk o0, rest) := by
  rw [readR, if_pos h]

theorem readRR_cons {o0 o1 : Byte} (h0 : legalReg o0 = true) (h1 : legalReg o1 = true) (mk : Byte → Byte → Instr)
    (rest : List Byte) : readRR mk (o0 :: o1 :: rest) = .ok (mk o0 o1, rest) := by
  rw [readRR, if_pos h0, if_pos h1]

theorem readRI_cons {o0 : Byte} (h : legalReg o0 = true) (mk : Byte → Byte → Instr) (o1 : Byte) (rest : List Byte) :
    readRI mk (o0 :: o1 :: rest) = .ok (mk o0 o1, rest) := by
  rw [readRI, if_pos h]

theorem readR_eq_ok {mk : Byte → Instr} {bs rest : List Byte} {i : Instr} (h : readR mk bs = .ok (i, rest)) :
    ∃ o0, legalReg o0 = true ∧ i = mk o0 ∧ bs = o0 :: rest := by
  unfold readR at h
  split at h
  · split at h
    · next h0 => cases h; exact ⟨_, h0, rfl, rfl⟩
    · cases h
  · cases h

theorem readRR_eq_ok {mk : Byte → Byte → Instr} {bs rest : List Byte} {i : Instr} (h : readRR mk bs = .ok (i, rest)) :
    ∃ o0 o1, legalReg o0 = true ∧ legalReg o1 = true ∧ i = mk o0 o1 ∧ bs = o0 :: o1 :: rest := by
  unfold readRR at h
  split at h
  · split_ifs at h with h0 h1
    cases h
    exact ⟨_, _, h0, h1, rfl, rfl⟩
  · cases h

theorem readRI_eq_ok {mk : Byte → Byte → Instr} {bs rest : List Byte} {i : Instr} (h : readRI mk bs = .ok (i, rest)) :
    ∃ o0 o1, legalReg o0 = true ∧ i = mk o0 o1 ∧ bs = o0 :: o1 :: rest := by
  unfold readRI at h
  split at h
  · split_ifs at h with h0
    cases h
    exact ⟨_, _, h0, rfl, rfl⟩
  · cases h

/-! ### The two directions -/

theorem readOperands_encode_tail {i : Instr} (h : i.WellFormed) (rest : List Byte) :
    readOperands i.opcode ((encode i).tail ++ rest) = .ok (i, rest) := by
  have hlegal := wellFormed_iff.1 h
  cases i with
  | hlt | ret => rfl
  | prn r | push r | pop r | call r | jmp r | jeq r | jne r =>
    exact readR_cons (hlegal r List.mem_cons_self) _ rest
  | add a b | mul a b | cmp a b =>
    exact readRR_cons (hlegal a List.mem_cons_self) (hlegal b (List.mem_cons_of_mem a List.mem_cons_self)) _ rest
  | ldi r imm => exact readRI_cons (hlegal r List.mem_cons_self) _ imm rest

theorem readOperands_eq_ok {op : Opcode} {bs rest : List Byte} {i : Instr} (h : readOperands op bs = .ok (i, rest)) :
    i.opcode = op ∧ i.WellFormed ∧ (encode i).tail ++ rest = bs := by
  cases op with
  | hlt | ret => cases h; exact ⟨rfl, rfl, rfl⟩
  | prn | push | pop | call | jmp | jeq | jne =>
    obtain ⟨o0, h0, rfl, rfl⟩ := readR_eq_ok h
    exact ⟨rfl, wellFormed_iff.2 (List.forall_mem_singleton.2 h0), rfl⟩
  | add | mul | cmp =>
    obtain ⟨o0, o1, h0, h1, rfl, rfl⟩ := readRR_eq_ok h
    exact ⟨rfl, wellFormed_iff.2 (List.forall_mem_cons.2 ⟨h0, List.forall_mem_singleton.2 h1⟩), rfl⟩
  | ldi =>
    obtain ⟨o0, o1, h0, rfl, rfl⟩ := readRI_eq_ok h
    exact ⟨rfl, wellFormed_iff.2 (List.forall_mem_singleton.2 h0), rfl⟩

/-- Settles O2: the first byte selects the opcode, and the reader of its format takes back the operand bytes, all of them legal. -/
theorem decodeOfEncode : Obligations.DecodeOfEncode := by
  intro i rest h
  rw [encode_eq_cons_tail i, List.cons_append, decode_byte_cons, readOperands_encode_tail h]

/-- Settles O3: a first byte that is accepted is an opcode's byte, and each format's reader accepts only legal register operands and
consumes exactly the operand bytes. -/
theorem encodeOfDecode : Obligations.EncodeOfDecode := by
  intro bs rest i h
  match bs with
  | [] => cases h
  | b :: operands =>
    rw [decode] at h
    cases hop : opcode? b with
    | none => rw [hop] at h; cases h
    | some op =>
      rw [hop] at h
      obtain ⟨rfl, hwf, hoperands⟩ := readOperands_eq_ok h
      refine ⟨hwf, ?_⟩
      rw [encode_eq_cons_tail i, List.cons_append, hoperands, opcode?_eq_some hop]

/-- Decoding accepts exactly the byte lists that begin with a well-formed instruction's encoding. -/
theorem decode_eq_ok_iff {bs rest : List Byte} {i : Instr} :
    decode bs = .ok (i, rest) ↔ i.WellFormed ∧ encode i ++ rest = bs :=
  ⟨encodeOfDecode bs rest i, fun ⟨hwf, hbs⟩ => hbs ▸ decodeOfEncode i rest hwf⟩

/-! ### Unknown first bytes -/

theorem readR_eq_error {mk : Byte → Instr} {bs : List Byte} {e : DecodeError} (h : readR mk bs = .error e) :
    e = .missingByte ∨ ∃ o, e = .invalidRegister o := by
  unfold readR at h
  split at h
  · split_ifs at h
    cases h
    exact .inr ⟨_, rfl⟩
  · cases h
    exact .inl rfl

theorem readRR_eq_error {mk : Byte → Byte → Instr} {bs : List Byte} {e : DecodeError} (h : readRR mk bs = .error e) :
    e = .missingByte ∨ ∃ o, e = .invalidRegister o := by
  unfold readRR at h
  split at h
  · split_ifs at h
    all_goals cases h; exact .inr ⟨_, rfl⟩
  · cases h
    exact .inl rfl

theorem readRI_eq_error {mk : Byte → Byte → Instr} {bs : List Byte} {e : DecodeError} (h : readRI mk bs = .error e) :
    e = .missingByte ∨ ∃ o, e = .invalidRegister o := by
  unfold readRI at h
  split at h
  · split_ifs at h
    cases h
    exact .inr ⟨_, rfl⟩
  · cases h
    exact .inl rfl

/-- Once the opcode is known, only a missing byte or a register operand can be at fault (R187). -/
theorem readOperands_eq_error {op : Opcode} {bs : List Byte} {e : DecodeError} (h : readOperands op bs = .error e) :
    e = .missingByte ∨ ∃ o, e = .invalidRegister o := by
  cases op with
  | hlt | ret => cases h
  | prn | push | pop | call | jmp | jeq | jne => exact readR_eq_error h
  | add | mul | cmp => exact readRR_eq_error h
  | ldi => exact readRI_eq_error h

/-- R89 lists the bytes of the opcode map (R85), in another order. -/
theorem legalFirstBytes_perm : Machine.legalFirstBytes.Perm (opcodeTable.map Opcode.byte) := by decide

theorem exists_byte_of_legalFirst {b : Byte} (h : b ∈ Machine.legalFirstBytes) : ∃ op : Opcode, op.byte = b := by
  obtain ⟨op, -, hop⟩ := List.mem_map.1 (legalFirstBytes_perm.mem_iff.1 h)
  exact ⟨op, hop⟩

/-- Settles O4: a listed byte is some opcode's, whose operand reader never answers that the opcode is unknown. -/
theorem unlistedBytesAreUnknown : Obligations.UnlistedBytesAreUnknown := by
  refine fun b rest => ⟨fun h hmem => ?_, fun h => Machine.decode_unlisted_cons h rest⟩
  obtain ⟨op, rfl⟩ := exists_byte_of_legalFirst hmem
  rw [decode_byte_cons] at h
  obtain h | ⟨_, h⟩ := readOperands_eq_error h <;> cases h

/-- Settles O1: each word's first byte selects its opcode and its operand bytes are legal, by running the decoder. -/
theorem sampleWordsDecode : Obligations.SampleWordsDecode :=
  ⟨rfl, rfl, rfl, rfl, rfl, rfl, rfl, rfl, rfl, rfl, rfl, rfl, rfl⟩

end Sys2Proof
end

section
/-! The instruction at the program counter: what the step runs, in terms of the bytes that lie in memory (R56, R111, R113). -/

namespace Sys2Proof

theorem Instr.length_le_three (i : Instr) : i.length ≤ 3 :=
  Nat.add_le_add_left (Format.operandCount_le_two _) 1

theorem Instr.length_pos (i : Instr) : 0 < i.length := Nat.lt_of_lt_of_le Nat.one_pos (Nat.le_add_right 1 _)

namespace Machine

/-! ### The bytes the decoder is shown -/

theorem State.bytesAt_length (s : State) (a : Nat) : (s.bytesAt a).length = min 3 (256 - a) := by
  rw [State.bytesAt, List.length_map, List.length_range', Config.memSize]

theorem State.bytesAt_getElem (s : State) {a k : Nat} (h : k < (s.bytesAt a).length) :
    (s.bytesAt a)[k] = s.mem.read (a + k) := by
  simp [State.bytesAt]

/-- The encoding of the well-formed instruction lies in memory from `pc` on, up to the last cell at most (R56). -/
structure State.Holds (s : State) (i : Instr) : Prop where
  wellFormed : i.WellFormed
  fits : s.pc.toNat + i.length ≤ 256
  bytes : ∀ k b, (encode i)[k]? = some b → s.mem.read (s.pc.toNat + k) = b

theorem State.Holds.pc_lt {s : State} {i : Instr} (h : s.Holds i) : s.pc.toNat < 256 :=
  Nat.lt_of_lt_of_le (Nat.lt_add_of_pos_right i.length_pos) h.fits

theorem State.Holds.byteAtPc_eq {s : State} {i : Instr} (h : s.Holds i) : s.byteAtPc = i.opcode.byte :=
  h.bytes 0 _ (List.head?_eq_getElem? ▸ encode_head? i)

theorem encode_prefix_bytesAt_iff {s : State} {i : Instr} (hwf : i.WellFormed) :
    encode i <+: s.bytesAt s.pc.toNat ↔ s.Holds i := by
  constructor
  · intro hp
    have hlen := hp.length_le
    rw [encode_length, State.bytesAt_length] at hlen
    refine ⟨hwf, by have := i.length_pos; omega, fun k b hk => ?_⟩
    obtain ⟨hk', rfl⟩ := List.getElem?_eq_some_iff.1 hk
    rw [hp.getElem hk', State.bytesAt_getElem]
  · intro h
    refine List.prefix_iff_getElem?.2 fun k hk => ?_
    have hk' : k < (s.bytesAt s.pc.toNat).length := by
      have := i.length_le_three
      have := h.fits
      rw [encode_length] at hk
      rw [State.bytesAt_length]
      omega
    rw [List.getElem?_eq_getElem hk', State.bytesAt_getElem, h.bytes k _ (List.getElem?_eq_getElem hk)]

theorem State.decodeNext_of_decode {s : State} {i : Instr} {rest : List Byte}
    (h : decode (s.bytesAt s.pc.toNat) = .ok (i, rest)) : s.decodeNext = .ok i := by
  rw [State.decodeNext, h]

/-- Decoding at `pc` answers exactly the instruction whose encoding lies there. -/
theorem State.decodeNext_eq_ok_iff {s : State} {i : Instr} : s.decodeNext = .ok i ↔ s.Holds i := by
  constructor
  · intro h
    rw [State.decodeNext] at h
    split at h
    · next j rest hd =>
      cases h
      obtain ⟨hwf, hbs⟩ := decode_eq_ok_iff.1 hd
      exact (encode_prefix_bytesAt_iff hwf).1 ⟨rest, hbs⟩
    · cases h
  · intro h
    obtain ⟨rest, hbs⟩ := (encode_prefix_bytesAt_iff h.wellFormed).2 h
    exact State.decodeNext_of_decode (decode_eq_ok_iff.2 ⟨h.wellFormed, hbs⟩)

/-! ### The step as the run of that instruction -/

theorem step_of_decodeNext {s : State} {i : Instr} (hrun : s.run = .running) (hpc : s.pc.toNat < 256)
    (hd : s.decodeNext = .ok i) : step s = exec i (s.setIr s.byteAtPc) := by
  rw [step_fetched hrun hpc, hd]
  rfl

theorem step_of_decodeNext_error {s : State} {e : FaultKind} (hrun : s.run = .running) (hpc : s.pc.toNat < 256)
    (hd : s.decodeNext = .error e) : step s = .next ((s.setIr s.byteAtPc).raise e) := by
  rw [step_fetched hrun hpc, hd]
  rfl

theorem step_of_holds {s : State} {i : Instr} (hrun : s.run = .running) (h : s.Holds i) :
    step s = exec i (s.setIr s.byteAtPc) :=
  step_of_decodeNext hrun h.pc_lt (State.decodeNext_eq_ok_iff.2 h)

/-- Settles O6: the fetch succeeds below 256, and what the decoder answers at `pc` is run. -/
theorem stepRunsDecodedInstruction : Obligations.StepRunsDecodedInstruction :=
  fun _ _ _ hrun hpc hd => step_of_decodeNext hrun hpc (State.decodeNext_of_decode hd)

/-- Settles O7: the bytes the decoder is shown begin with the encoding, so decoding gives the instruction back. -/
theorem stepRunsEncodedInstruction : Obligations.StepRunsEncodedInstruction := by
  intro s i hrun hwf hfits hbytes
  have h : s.Holds i := ⟨hwf, hfits, hbytes⟩
  rw [step_of_holds hrun h, h.byteAtPc_eq]

/-- Settles O12: the two stopped execution states have no step. -/
theorem noStepOnceStopped : Obligations.NoStepOnceStopped := fun _ => ⟨step_halted, step_faulted⟩

end Machine
end Sys2Proof
end

section
/-! What a completed instruction and a step can do, once, for every instruction. -/

namespace Sys2Proof.Machine

/-! ### What a completed instruction does -/

/-- `pc` holds the value that the register named by the operand byte has at the end of the instruction (R160). -/
def JumpsTo (o : Byte) (t : State) : Prop := ∃ r, o = regByte r ∧ t.pc = (t.reg r).setWidth 9

/-- Where a completed instruction leaves `pc` (R114, R161 to R165). -/
def PcRule (s t : State) : Instr → Prop
  | .call o | .jmp o => JumpsTo o t
  | .jeq o => if s.equalFlag then JumpsTo o t else t.pc = BitVec.ofNat 9 (s.pc.toNat + 1 + 1)
  | .jne o => if s.equalFlag then t.pc = BitVec.ofNat 9 (s.pc.toNat + 1 + 1) else JumpsTo o t
  | .ret => t.pc = (s.mem.read (s.reg 7).toNat).setWidth 9
  | i => t.pc = BitVec.ofNat 9 (s.pc.toNat + 1 + i.opcode.format.operandCount)

/-- What an instruction that raises no fault changes outside the general registers, and what it leaves. `ir` is not mentioned: the
fetch writes it. -/
structure Completes (i : Instr) (s t : State) : Prop where
  pc : PcRule s t i
  run : t.run = if i.opcode = .hlt then .halted else s.run
  faultRegisters : t.fcause = s.fcause ∧ t.finfo = s.finfo
  fl : t.fl = s.fl ∨ i.opcode = .cmp ∧ FlagsLegal t.fl
  mem : t.mem = s.mem ∨ (i.opcode = .push ∨ i.opcode = .call) ∧ (s.reg 7).toNat ≠ 0 ∧
    ∃ v, t.mem = s.mem.write ((s.reg 7).toNat - 1) v
  out : t.out = s.out ∨ i.opcode = .prn ∧ ∃ v, t.out = s.out ++ [v]

theorem flagsLegal_cmpFlags (u v : Byte) : FlagsLegal (cmpFlags u v) := by
  unfold cmpFlags
  split_ifs
  · exact .inr (.inr (.inl rfl))
  · exact .inr (.inr (.inr rfl))
  · exact .inr (.inl rfl)

/-- An instruction that changes nothing but registers, `pc` and `run` completes when these two follow their rules. -/
theorem completes_of_frame {i : Instr} {s t : State} (h : { s with x := t.x, pc := t.pc, run := t.run } = t)
    (hpc : PcRule s t i) (hrun : t.run = if i.opcode = .hlt then .halted else s.run) : Completes i s t := by
  rw [← h] at hpc hrun ⊢
  exact ⟨hpc, hrun, ⟨rfl, rfl⟩, .inl rfl, .inl rfl, .inl rfl⟩

/-- The cases of `wellFormed_cases`, by name: a fact of all well-formed instructions is proved for each on register indices. -/
theorem wellFormed_induction {motive : (i : Instr) → i.WellFormed → Prop}
    (hlt : ∀ h, motive .hlt h) (ldi : ∀ r v h, motive (.ldi (regByte r) v) h) (prn : ∀ r h, motive (.prn (regByte r)) h)
    (add : ∀ a b h, motive (.add (regByte a) (regByte b)) h) (mul : ∀ a b h, motive (.mul (regByte a) (regByte b)) h)
    (push : ∀ r h, motive (.push (regByte r)) h) (pop : ∀ r h, motive (.pop (regByte r)) h)
    (call : ∀ r h, motive (.call (regByte r)) h) (ret : ∀ h, motive .ret h)
    (cmp : ∀ a b h, motive (.cmp (regByte a) (regByte b)) h) (jmp : ∀ r h, motive (.jmp (regByte r)) h)
    (jeq : ∀ r h, motive (.jeq (regByte r)) h) (jne : ∀ r h, motive (.jne (regByte r)) h) (i : Instr) (h : i.WellFormed) :
    motive i h := by
  obtain rfl | ⟨r, v, rfl⟩ | ⟨r, rfl⟩ | ⟨a, b, rfl⟩ | ⟨a, b, rfl⟩ | ⟨r, rfl⟩ | ⟨r, rfl⟩ | ⟨r, rfl⟩ | rfl | ⟨a, b, rfl⟩ |
    ⟨r, rfl⟩ | ⟨r, rfl⟩ | ⟨r, rfl⟩ := wellFormed_cases h
  exacts [hlt h, ldi r v h, prn r h, add a b h, mul a b h, push r h, pop r h, call r h, ret h, cmp a b h, jmp r h, jeq r h,
    jne r h]

/-- A well-formed instruction answers a next state, in which it has completed or raised OutOfRangeAddress; `ir` is kept. -/
theorem exec_wellFormed {i : Instr} (h : i.WellFormed) (s : State) :
    ∃ t, exec i s = .next t ∧ t.ir = s.ir ∧ ((∃ a, t = s.raise (.outOfRangeAddress a)) ∨ Completes i s t) := by
  induction i, h using wellFormed_induction with
  | hlt => exact ⟨_, exec_hlt s, rfl, .inr (completes_of_frame rfl rfl rfl)⟩
  | ldi r v => exact ⟨_, exec_ldi r v s, rfl, .inr (completes_of_frame rfl rfl rfl)⟩
  | prn r => exact ⟨_, exec_prn r s, rfl, .inr ⟨rfl, rfl, ⟨rfl, rfl⟩, .inl rfl, .inl rfl, .inr ⟨rfl, _, rfl⟩⟩⟩
  | add a b => exact ⟨_, exec_add a b s, rfl, .inr (completes_of_frame rfl rfl rfl)⟩
  | mul a b => exact ⟨_, exec_mul a b s, rfl, .inr (completes_of_frame rfl rfl rfl)⟩
  | cmp a b =>
    exact ⟨_, exec_cmp a b s, rfl,
      .inr ⟨rfl, rfl, ⟨rfl, rfl⟩, .inr ⟨rfl, flagsLegal_cmpFlags _ _⟩, .inl rfl, .inl rfl⟩⟩
  | push r =>
    rw [exec_push]
    split_ifs with hsp
    · exact ⟨_, rfl, rfl, .inl ⟨_, rfl⟩⟩
    · exact ⟨_, rfl, rfl, .inr ⟨rfl, rfl, ⟨rfl, rfl⟩, .inl rfl, .inr ⟨.inl rfl, hsp, _, rfl⟩, .inl rfl⟩⟩
  | pop r =>
    rw [exec_pop]
    split_ifs
    · exact ⟨_, rfl, rfl, .inl ⟨_, rfl⟩⟩
    · exact ⟨_, rfl, rfl, .inr (completes_of_frame rfl rfl rfl)⟩
  | call r =>
    rw [exec_call]
    split_ifs with hpc hsp
    · exact ⟨_, rfl, rfl, .inl ⟨_, rfl⟩⟩
    · exact ⟨_, rfl, rfl, .inl ⟨_, rfl⟩⟩
    · exact ⟨_, rfl, rfl, .inr ⟨⟨r, rfl, rfl⟩, rfl, ⟨rfl, rfl⟩, .inl rfl, .inr ⟨.inr rfl, hsp, _, rfl⟩, .inl rfl⟩⟩
  | ret =>
    rw [exec_ret]
    split_ifs
    · exact ⟨_, rfl, rfl, .inl ⟨_, rfl⟩⟩
    · exact ⟨_, rfl, rfl, .inr (completes_of_frame rfl rfl rfl)⟩
  | jmp r => exact ⟨_, exec_jmp r s, rfl, .inr (completes_of_frame rfl ⟨r, rfl, rfl⟩ rfl)⟩
  | jeq r =>
    rw [exec_jeq]
    split_ifs with heq
    · exact ⟨_, rfl, rfl, .inr (completes_of_frame rfl ((if_pos heq).mpr ⟨r, rfl, rfl⟩) rfl)⟩
    · exact ⟨_, rfl, rfl, .inr (completes_of_frame rfl ((if_neg heq).mpr rfl) rfl)⟩
  | jne r =>
    rw [exec_jne]
    split_ifs with heq
    · exact ⟨_, rfl, rfl, .inr (completes_of_frame rfl ((if_pos heq).mpr rfl) rfl)⟩
    · exact ⟨_, rfl, rfl, .inr (completes_of_frame rfl ((if_neg heq).mpr ⟨r, rfl, rfl⟩) rfl)⟩

/-! ### What a step does -/

/-- The cause code is one the machine can record: not that of UnsupportedALUOperation (R182, R186). -/
def FaultKind.Raisable (e : FaultKind) : Prop := e.code = 1 ∨ e.code = 3 ∨ e.code = 4

theorem FaultKind.raisable_ofDecodeError (e : DecodeError) : (FaultKind.ofDecodeError e).Raisable := by
  cases e with
  | unknownOpcode b => exact .inl rfl
  | missingByte => exact .inr (.inl rfl)
  | invalidRegister b => exact .inr (.inr rfl)

theorem State.decodeNext_error_raisable {s : State} {e : FaultKind} (h : s.decodeNext = .error e) : e.Raisable := by
  rw [State.decodeNext] at h
  split at h <;> cases h
  exact FaultKind.raisable_ofDecodeError _

theorem completes_of_setIr {i : Instr} {s t : State} {b : Byte} (h : Completes i (s.setIr b) t) : Completes i s t :=
  ⟨h.pc, h.run, h.faultRegisters, h.fl, h.mem, h.out⟩

/-- What `ir` holds after a step: the fetched byte, if the fetch succeeded (R112). -/
def State.irAfterFetch (s : State) : Byte := if s.pc.toNat < 256 then s.byteAtPc else s.ir

/-- A step raises a fault, with nothing changed but `ir`, or completes the instruction whose encoding lies at `pc` (R111, R188). -/
def StepEffect (s t : State) : Prop :=
  t.ir = s.irAfterFetch ∧
    ((∃ e : FaultKind, e.Raisable ∧ t = (s.setIr s.irAfterFetch).raise e) ∨ ∃ i, s.Holds i ∧ Completes i s t)

/-- Everything a step of a RUNNING machine can do; it always has one. -/
theorem step_running {s : State} (hrun : s.run = .running) : ∃ t, step s = .next t ∧ StepEffect s t := by
  by_cases hpc : s.pc.toNat < 256
  · have hir : s.irAfterFetch = s.byteAtPc := if_pos hpc
    simp only [StepEffect, hir]
    cases hd : s.decodeNext with
    | error e =>
      exact ⟨_, step_of_decodeNext_error hrun hpc hd, rfl, .inl ⟨e, State.decodeNext_error_raisable hd, rfl⟩⟩
    | ok i =>
      have hi := State.decodeNext_eq_ok_iff.1 hd
      obtain ⟨t, ht, htir, hcases⟩ := exec_wellFormed hi.wellFormed (s.setIr s.byteAtPc)
      refine ⟨t, (step_of_holds hrun hi).trans ht, htir, ?_⟩
      obtain ⟨a, rfl⟩ | hc := hcases
      · exact .inl ⟨_, .inr (.inl rfl), rfl⟩
      · exact .inr ⟨i, hi, completes_of_setIr hc⟩
  · have hir : s.irAfterFetch = s.ir := if_neg hpc
    simp only [StepEffect, hir]
    exact ⟨_, step_fetch_fault hrun (Nat.not_lt.1 hpc), rfl, .inl ⟨_, .inr (.inl rfl), rfl⟩⟩

theorem step_effect {s t : State} (h : step s = .next t) : s.run = .running ∧ StepEffect s t := by
  have hrun := (step_eq_next h).1
  obtain ⟨u, hu, heffect⟩ := step_running hrun
  obtain rfl : t = u := by rw [hu] at h; cases h; rfl
  exact ⟨hrun, heffect⟩

theorem State.Holds.fetches {s : State} {i : Instr} (h : s.Holds i) (hrun : s.run = .running) {op : Opcode}
    (hop : i.opcode = op) : s.Fetches op.byte :=
  ⟨hrun, h.pc_lt, hop ▸ h.byteAtPc_eq⟩

/-- A step that does not end FAULTED completes an instruction. -/
theorem step_completes {s t : State} (h : step s = .next t) (ht : t.run ≠ .faulted) :
    ∃ i, s.Holds i ∧ Completes i s t := by
  obtain ⟨-, -, ⟨e, -, rfl⟩ | hc⟩ := step_effect h
  · exact absurd rfl ht
  · exact hc

/-- A completed instruction does not end FAULTED. -/
theorem Completes.run_ne_faulted {i : Instr} {s t : State} (h : Completes i s t) (hrun : s.run = .running) :
    t.run ≠ .faulted := by
  rw [h.run, hrun]
  split_ifs <;> decide

end Sys2Proof.Machine
end

section
/-! The rules of the whole machine that speak of one field or of the end of a step (R11, R29, R32, R35, R63, R112, R188). -/

namespace Sys2Proof.Machine

/-- Settles O13: below 256 the decoder answers an instruction or a fault, above it the fetch answers a fault, and `exec` of a
well-formed instruction always answers a next state. -/
theorem runningMachineAlwaysSteps : Obligations.RunningMachineAlwaysSteps := fun _ hrun =>
  let ⟨t, ht, _⟩ := step_running hrun
  ⟨t, ht⟩

/-- Settles O8: above 255 the fetch itself faults, with `pc` as the address; below, every outcome of the step has the fetched byte in
`ir`. -/
theorem fetchReadsTheByteAtPc : Obligations.FetchReadsTheByteAtPc := by
  refine ⟨fun s hrun hpc => ?_, fun s hrun hpc => ?_⟩
  · have hinfo : (FaultKind.outOfRangeAddress s.pc.toNat).info = s.pc := by
      rw [FaultKind.info, BitVec.ofInt_natCast, BitVec.ofNat_toNat, BitVec.setWidth_eq]
    refine ⟨_, step_fetch_fault hrun hpc, ?_, rfl⟩
    have h := faultedWith_raise (.outOfRangeAddress s.pc.toNat) s
    rwa [hinfo] at h
  · obtain ⟨t, ht, hir, -⟩ := step_running hrun
    exact ⟨t, ht, hir.trans (if_pos (Nat.lt_succ_of_le hpc))⟩

/-- Settles O15: only the outcome that raises a fault ends in FAULTED, and it changes nothing but `ir` and what the fault records. -/
theorem faultsArePrecise : Obligations.FaultsArePrecise := by
  intro s t h ht
  obtain ⟨hrun, hir, ⟨e, he, rfl⟩ | ⟨i, -, hc⟩⟩ := step_effect h
  · exact ⟨faultedWith_raise_setIr e s _, he, hir⟩
  · exact absurd ht (hc.run_ne_faulted hrun)

theorem holds_hlt {s : State} (h : s.Fetches 0x01) : s.Holds .hlt := by
  obtain ⟨-, hpc, hbyte⟩ := h
  refine ⟨rfl, hpc, fun k b hk => ?_⟩
  obtain ⟨hk', rfl⟩ := List.getElem?_eq_some_iff.1 hk
  obtain rfl : k = 0 := Nat.lt_one_iff.1 hk'
  exact hbyte

/-- Settles O14: a completed instruction other than HLT leaves the machine RUNNING, and HLT raises no fault. -/
theorem onlyHltHalts : Obligations.OnlyHltHalts := by
  intro s t h
  have hrun := (step_effect h).1
  constructor
  · intro ht
    obtain ⟨i, hi, hc⟩ := step_completes h (by rw [ht]; decide)
    have hop : i.opcode = .hlt := by
      by_contra hne
      rw [hc.run, if_neg hne, hrun] at ht
      cases ht
    exact hi.fetches hrun hop
  · intro hf
    rw [step_of_holds hrun (holds_hlt hf), exec_hlt] at h
    cases h
    rfl

/-- Settles O32: `fl` is kept by a fault and by every completed instruction but CMP. -/
theorem onlyCmpWritesFlags : Obligations.OnlyCmpWritesFlags := by
  intro s t h hfl
  obtain ⟨hrun, -, ⟨e, -, rfl⟩ | ⟨i, hi, hc⟩⟩ := step_effect h
  · exact absurd rfl hfl
  · obtain hkept | ⟨hop, -⟩ := hc.fl
    · exact absurd hkept hfl
    · exact hi.fetches hrun hop

/-- Settles O35: the output is kept by a fault and by every completed instruction but PRN, which appends one value. -/
theorem onlyPrnWritesOutput : Obligations.OnlyPrnWritesOutput := by
  intro s t h
  obtain ⟨hrun, -, ⟨e, -, rfl⟩ | ⟨i, hi, hc⟩⟩ := step_effect h
  · exact .inl rfl
  · exact hc.out.imp_right fun ⟨hop, happended⟩ => ⟨hi.fetches hrun hop, happended⟩

/-- Settles O36: memory is kept by a fault and by every completed instruction but PUSH and CALL, whose one write is below a nonzero
stack pointer. -/
theorem onlyPushAndCallWriteMemory : Obligations.OnlyPushAndCallWriteMemory := by
  intro s t a h hread
  obtain ⟨hrun, -, ⟨e, -, rfl⟩ | ⟨i, hi, hc⟩⟩ := step_effect h
  · exact absurd rfl hread
  · obtain hkept | ⟨hop, hsp, v, hwrite⟩ := hc.mem
    · rw [hkept] at hread
      exact absurd rfl hread
    · have ha : a = (s.reg 7).toNat - 1 := by
        by_contra hne
        rw [hwrite, Memory.read_write_ne _ _ hne] at hread
        exact hread rfl
      have hlt := (s.reg 7).isLt
      exact ⟨hop.imp (hi.fetches hrun) (hi.fetches hrun), by omega, by omega⟩

end Sys2Proof.Machine
end

section
/-! Where a step leaves `pc`, and the invariant that every step keeps (R26, R30, R33, R114). -/

namespace Sys2Proof.Machine

/-! ### The program counter -/

theorem advance_toNat {s t : State} {n : Nat} (h : t.pc = BitVec.ofNat 9 (s.pc.toNat + 1 + n))
    (hfits : s.pc.toNat + (1 + n) ≤ 256) : t.pc.toNat = s.pc.toNat + 1 + n := by
  rw [h, BitVec.toNat_ofNat, Nat.mod_eq_of_lt (by omega)]

theorem advance_le {s t : State} {n : Nat} (h : t.pc = BitVec.ofNat 9 (s.pc.toNat + 1 + n))
    (hfits : s.pc.toNat + (1 + n) ≤ 256) : t.pc.toNat ≤ 256 :=
  (advance_toNat h hfits).trans_le (by omega)

theorem target_toNat {t : State} {v : Byte} (h : t.pc = v.setWidth 9) : t.pc.toNat = v.toNat := by
  rw [h, BitVec.toNat_setWidth_of_le (by decide)]

theorem target_le {t : State} {v : Byte} (h : t.pc = v.setWidth 9) : t.pc.toNat ≤ 256 :=
  (target_toNat h).trans_le v.isLt.le

theorem JumpsTo.pc_le {o : Byte} {t : State} (h : JumpsTo o t) : t.pc.toNat ≤ 256 :=
  let ⟨_, _, hpc⟩ := h
  target_le hpc

/-- The program counter stays within 256: a jump target is a byte, and an advance ends at most one past the last cell (R26). -/
theorem PcRule.pc_le {i : Instr} {s t : State} (h : PcRule s t i) (hfits : s.pc.toNat + i.length ≤ 256) :
    t.pc.toNat ≤ 256 := by
  cases i with
  | hlt | ldi | prn | add | mul | push | pop | cmp => exact advance_le h hfits
  | call o | jmp o => exact JumpsTo.pc_le h
  | ret => exact target_le h
  | jeq o =>
    rw [PcRule] at h
    split_ifs at h
    · exact h.pc_le
    · exact advance_le h hfits
  | jne o =>
    rw [PcRule] at h
    split_ifs at h
    · exact advance_le h hfits
    · exact h.pc_le

/-- A jump of the instruction at `pc` goes where the register named by its operand byte in memory says. -/
theorem JumpsTo.of_holds {i : Instr} {s t : State} {o : Byte} (h : JumpsTo o t) (hi : s.Holds i)
    (ho : (encode i)[1]? = some o) : ∃ r, s.mem.read (s.pc.toNat + 1) = regByte r ∧ t.pc.toNat = (t.reg r).toNat :=
  let ⟨r, hr, hpc⟩ := h
  ⟨r, (hi.bytes 1 o ho).trans hr, target_toNat hpc⟩

/-- Settles O11: the completed instruction is the one the fetched byte names, and its bytes end within the memory, so that an advance
is not reduced. -/
theorem pcAdvancesUnlessWritten : Obligations.PcAdvancesUnlessWritten := by
  intro s t b ⟨_, _, hb⟩ hstep ht
  obtain ⟨i, hi, hc⟩ := step_completes hstep ht
  obtain rfl : i.opcode.byte = b := hi.byteAtPc_eq.symm.trans hb
  have hpc := hc.pc
  have hfits := hi.fits
  rw [Opcode.byte_toNat_div_64]
  cases i with
  | hlt | ldi | prn | add | mul | push | pop | cmp =>
    rw [if_neg (by simp [Instr.opcode, Opcode.byte]), if_neg (by simp [Instr.opcode, Opcode.byte])]
    exact advance_toNat hpc hfits
  | call o | jmp o =>
    rw [if_pos (by simp [Instr.opcode, Opcode.byte])]
    exact JumpsTo.of_holds hpc hi rfl
  | ret =>
    rw [if_neg (by simp [Instr.opcode, Opcode.byte]), if_pos (show Instr.ret.opcode.byte = 0x11 from rfl)]
    exact target_toNat hpc
  | jeq o =>
    rw [PcRule] at hpc
    split_ifs at hpc with heq
    · rw [if_pos (.inr (.inr (.inl ⟨rfl, heq⟩)))]
      exact hpc.of_holds hi rfl
    · rw [if_neg (by simpa [Instr.opcode, Opcode.byte, State.equalFlag] using heq),
        if_neg (by simp [Instr.opcode, Opcode.byte])]
      exact advance_toNat hpc hfits
  | jne o =>
    rw [PcRule] at hpc
    split_ifs at hpc with heq
    · rw [if_neg (by simpa [Instr.opcode, Opcode.byte, State.equalFlag] using heq),
        if_neg (by simp [Instr.opcode, Opcode.byte])]
      exact advance_toNat hpc hfits
    · rw [if_pos (.inr (.inr (.inr ⟨rfl, Bool.eq_false_iff.2 heq⟩)))]
      exact hpc.of_holds hi rfl

/-! ### The invariant -/

theorem flagsLegal_of_completes {i : Instr} {s t : State} (h : Completes i s t) (hs : FlagsLegal s.fl) : FlagsLegal t.fl := by
  obtain hkept | ⟨-, hlegal⟩ := h.fl
  · rwa [hkept]
  · exact hlegal

theorem mem_wf_of_completes {i : Instr} {s t : State} (h : Completes i s t) (hs : s.mem.wf) : t.mem.wf := by
  obtain hkept | ⟨-, -, v, hwrite⟩ := h.mem
  · rwa [hkept]
  · rw [hwrite]
    exact Memory.wf_write hs (Nat.lt_of_le_of_lt (Nat.sub_le _ _) (s.reg 7).isLt) v

/-- Settles O29: a fault keeps `pc`, `fl` and memory and records a cause that can be raised; a completed instruction keeps each part
of the invariant by the rule of the field it speaks of. -/
theorem stepKeepsInvariant : Obligations.StepKeepsInvariant := by
  intro s t ⟨hpc, hfl, hmem, hnofault, _⟩ h
  obtain ⟨hrun, -, ⟨e, he, rfl⟩ | ⟨i, hi, hc⟩⟩ := step_effect h
  · exact ⟨hpc, hfl, hmem, fun hne => absurd rfl hne, fun _ => he⟩
  · have hne := hc.run_ne_faulted hrun
    have hzero := hnofault (by rw [hrun]; decide)
    obtain ⟨hcause, hinfo⟩ := hc.faultRegisters
    exact ⟨hc.pc.pc_le hi.fits, flagsLegal_of_completes hc hfl, mem_wf_of_completes hc hmem,
      fun _ => ⟨hcause.trans hzero.1, hinfo.trans hzero.2⟩, fun hf => absurd hf hne⟩

/-- Settles O30: each part of the invariant holds of the reset values. -/
theorem resetHasInvariant : Obligations.ResetHasInvariant :=
  ⟨by decide, .inl rfl, Memory.wf_nil, fun _ => ⟨rfl, rfl⟩, fun h => nomatch h⟩

theorem start_eq_some {img : List Byte} {s : State} (h : State.start img = some s) :
    s = { State.reset with mem := Memory.ofImage img } := by
  unfold State.start at h
  split_ifs at h
  exact (Option.some.inj h).symm

/-- Settles O31: a start state is the reset state but for its memory, which is an image's and so in canonical form. -/
theorem everyStartStateHasInvariant : Obligations.EveryStartStateHasInvariant := by
  intro img s h
  obtain ⟨hpc, hfl, -, hagree⟩ := resetHasInvariant
  rw [start_eq_some h]
  exact ⟨hpc, hfl, Memory.wf_ofImage img, hagree⟩

end Sys2Proof.Machine
end

section
/-! HLT, and the instructions that move the stack pointer: PUSH, POP, CALL (R115, R151, R152, R161). -/

namespace Sys2Proof.Machine

/-- Settles O16: HLT is a write of `run` and an advance. -/
theorem hltHalts : Obligations.HltHalts :=
  ⟨fun s => ⟨_, exec_hlt s, rfl, pcAdvances_advance 0 rfl (by decide), fun _ _ => rfl, rfl, fun _ => rfl, rfl, rfl, rfl, rfl⟩,
    rfl⟩

/-! ### The state after a push -/

/-- A completed push of `v`: the stack pointer one lower, `v` in the cell it then addresses (R150). -/
def State.pushed (s : State) (v : Byte) : State := (s.setReg 7 (s.reg 7 - 1)).setCell ((s.reg 7).toNat - 1) v

theorem pushed_sp (s : State) (v : Byte) : (s.pushed v).reg 7 = s.reg 7 - 1 := State.setReg_reg_same s 7 _

theorem pushed_sp_toNat {s : State} (hsp : (s.reg 7).toNat ≠ 0) (v : Byte) :
    ((s.pushed v).reg 7).toNat = (s.reg 7).toNat - 1 := by
  rw [pushed_sp, byte_pred_toNat hsp]

theorem pushed_sp_ne_255 {s : State} {v : Byte} (hsp : (s.reg 7).toNat ≠ 0) : ((s.pushed v).reg 7).toNat ≠ 255 := by
  have := (s.reg 7).isLt
  rw [pushed_sp_toNat hsp]
  omega

theorem pushed_read {s : State} (hmem : s.mem.wf) (v : Byte) : (s.pushed v).mem.read ((s.reg 7).toNat - 1) = v :=
  Memory.read_write_same hmem _ v

/-- What PUSH and CALL share: a state that differs from the pushed one at most in `pc` has the stack pointer one lower, the byte in
the cell below the old one, and everything else as it was (R150). -/
theorem pushed_effect {s t : State} {v : Byte} (hsp : (s.reg 7).toNat ≠ 0) (ht : { s.pushed v with pc := t.pc } = t) :
    (t.reg 7).toNat = (s.reg 7).toNat - 1 ∧ (s.mem.wf → t.mem.read ((s.reg 7).toNat - 1) = v) ∧
      SameRegsExcept [7] s t ∧ t.fl = s.fl ∧ SameMemoryExcept ((s.reg 7).toNat - 1) s t ∧ t.out = s.out ∧
      SameControl s t := by
  rw [← ht]
  exact ⟨pushed_sp_toNat hsp v, fun hmem => pushed_read hmem v, sameRegsExcept_setReg s 7 _, rfl,
    fun _ ha => Memory.read_write_ne s.mem v ha, rfl, rfl, rfl, rfl, rfl⟩

/-- Register r as an instruction reads it after a decrement of the stack pointer: for r = 7 the decremented value (D13). -/
theorem setReg_sp_reg (s : State) (r : RegIdx) (v : Byte) : (s.setReg 7 v).reg r = if r = 7 then v else s.reg r :=
  State.setReg_reg s 7 v r

/-! ### PUSH -/

theorem exec_push_pushes (r : RegIdx) {s : State} (hsp : (s.reg 7).toNat ≠ 0) :
    exec (.push (regByte r)) s = .next ((s.pushed ((s.setReg 7 (s.reg 7 - 1)).reg r)).advance 1) := by
  rw [exec_push, if_neg hsp]
  rfl

theorem exec_push_fault (r : RegIdx) {s : State} (hsp : (s.reg 7).toNat = 0) :
    exec (.push (regByte r)) s = .next (s.raise (.outOfRangeAddress (-1))) := by
  rw [exec_push, if_pos hsp]

/-- Settles O22: a PUSH that completes is a push of register r, read after the decrement, and an advance; the faults are those of the
decrement, of the register check and of the operand fetch of its format. -/
theorem pushStoresBelowStackPointer : Obligations.PushStoresBelowStackPointer := by
  refine ⟨fun r s hsp => ?_,
    fun r s hsp => ⟨_, exec_push_fault r hsp, faultedWith_raise (.outOfRangeAddress (-1)) s, rfl⟩,
    fun _ s h => execFaults_illegal_first s rfl h, operandFetchFaults_byte .push, fun _ => rfl⟩
  refine ⟨_, exec_push_pushes r hsp, ?_⟩
  obtain ⟨hdown, hread, hframe⟩ :=
    pushed_effect (t := (s.pushed ((s.setReg 7 (s.reg 7 - 1)).reg r)).advance 1) hsp rfl
  refine ⟨hdown, fun hmem => ?_, pcAdvances_advance 1 rfl (by decide), hframe⟩
  rw [hread hmem, setReg_sp_reg, State.advance_reg, pushed_sp]

/-! ### POP -/

/-- POP of a register other than 7: the loaded register and the stack pointer are two (R152). -/
theorem exec_pop_other {r : RegIdx} (hr : r ≠ 7) (s : State) :
    exec (.pop (regByte r)) s =
      .next (if (s.reg 7).toNat = 255 then s.raise (.outOfRangeAddress 256)
        else ((s.setReg r (s.mem.read (s.reg 7).toNat)).setReg 7 (s.reg 7 + 1)).advance 1) := by
  rw [exec_pop, State.setReg_reg_ne s _ hr.symm]

/-- POP of register 7: the increment acts on the loaded byte (R152, D13). -/
theorem exec_pop_sp (s : State) :
    exec (.pop (regByte 7)) s =
      .next (if (s.mem.read (s.reg 7).toNat).toNat = 255 then s.raise (.outOfRangeAddress 256)
        else ((s.setReg 7 (s.mem.read (s.reg 7).toNat)).setReg 7 (s.mem.read (s.reg 7).toNat + 1)).advance 1) := by
  rw [exec_pop, State.setReg_reg_same]

theorem exec_pop_pops {r : RegIdx} (hr : r ≠ 7) {s : State} (hsp : (s.reg 7).toNat ≠ 255) :
    exec (.pop (regByte r)) s = .next (((s.setReg r (s.mem.read (s.reg 7).toNat)).setReg 7 (s.reg 7 + 1)).advance 1) := by
  rw [exec_pop_other hr, if_neg hsp]

theorem exec_pop_sp_pops {s : State} (htop : (s.mem.read (s.reg 7).toNat).toNat ≠ 255) :
    exec (.pop (regByte 7)) s =
      .next (((s.setReg 7 (s.mem.read (s.reg 7).toNat)).setReg 7 (s.mem.read (s.reg 7).toNat + 1)).advance 1) := by
  rw [exec_pop_sp, if_neg htop]

theorem sameRegsExcept_setReg_setReg (s : State) (i j : RegIdx) (v w : Byte) :
    SameRegsExcept [i, j] s ((s.setReg i v).setReg j w) := by
  intro k hk
  rw [List.mem_cons, List.mem_singleton, not_or] at hk
  rw [State.setReg_reg_ne _ _ hk.2, State.setReg_reg_ne _ _ hk.1]

/-- A PUSH and then a POP, neither of register 7: the increment undoes the decrement, and the cell between holds the value. -/
theorem exec_push_then_pop {r r' : RegIdx} {s : State} (hr : r ≠ 7) (hr' : r' ≠ 7) (hmem : s.mem.wf)
    (hsp : (s.reg 7).toNat ≠ 0) :
    ∃ t u, exec (.push (regByte r)) s = .next t ∧ exec (.pop (regByte r')) t = .next u ∧
      u.reg r' = s.reg r ∧ u.reg 7 = s.reg 7 := by
  refine ⟨_, _, exec_push_pushes r hsp, exec_pop_pops hr' (pushed_sp_ne_255 (v := (s.setReg 7 (s.reg 7 - 1)).reg r) hsp), ?_, ?_⟩
  · rw [State.advance_reg, State.setReg_reg_ne _ _ hr', State.setReg_reg_same, State.advance_reg, State.advance_mem,
      pushed_sp_toNat hsp, pushed_read hmem, State.setReg_reg_ne _ _ hr]
  · rw [State.advance_reg, State.setReg_reg_same, State.advance_reg, pushed_sp, BitVec.sub_add_cancel]

/-- Settles O23: a POP that completes is the load of the register, the increment and an advance; the increment faults at 255, after a
load of register 7 on the loaded byte; the other faults are those of the register check and of the operand fetch of its format. -/
theorem popLoadsFromStackPointer : Obligations.PopLoadsFromStackPointer := by
  refine ⟨fun r s hr hsp => ⟨_, exec_pop_pops hr hsp, ?_, ?_, pcAdvances_advance 1 rfl (by decide),
      sameRegsExcept_setReg_setReg s r 7 _ _, rfl, fun _ => rfl, rfl, rfl, rfl, rfl, rfl⟩,
    fun s htop => ⟨_, exec_pop_sp_pops htop, ?_, pcAdvances_advance 1 rfl (by decide), fun k hk => ?_, rfl, fun _ => rfl, rfl,
      rfl, rfl, rfl, rfl⟩,
    fun r s hr hsp => ⟨_, (exec_pop_other hr s).trans (by rw [if_pos hsp]), faultedWith_raise (.outOfRangeAddress 256) s, rfl⟩,
    fun s htop => ⟨_, (exec_pop_sp s).trans (by rw [if_pos htop]), faultedWith_raise (.outOfRangeAddress 256) s, rfl⟩,
    fun _ s h => execFaults_illegal_first s rfl h, operandFetchFaults_byte .pop, fun _ => rfl,
    fun r r' s hr hr' hmem hsp => exec_push_then_pop hr hr' hmem hsp⟩
  · rw [State.advance_reg, State.setReg_reg_ne _ _ hr, State.setReg_reg_same]
  · rw [State.advance_reg, State.setReg_reg_same, byte_succ_toNat hsp]
  · rw [State.advance_reg, State.setReg_reg_same, byte_succ_toNat htop]
  · have hk7 : k ≠ 7 := List.ne_of_not_mem_cons hk
    rw [State.advance_reg, State.setReg_reg_ne _ _ hk7, State.setReg_reg_ne _ _ hk7]

/-! ### CALL -/

theorem exec_call_address_fault (r : RegIdx) {s : State} (hpc : 253 < s.pc.toNat) :
    exec (.call (regByte r)) s = .next (s.raise (.outOfRangeAddress 256)) := by
  rw [exec_call, if_pos hpc]

theorem exec_call_sp_fault (r : RegIdx) {s : State} (hpc : s.pc.toNat ≤ 253) (hsp : (s.reg 7).toNat = 0) :
    exec (.call (regByte r)) s = .next (s.raise (.outOfRangeAddress (-1))) := by
  rw [exec_call, if_neg (Nat.not_lt.2 hpc), if_pos hsp]

/-- Settles O24: a CALL that completes is a push of the return address and a jump to the register as it stands after the push; the
return address is tested before the stack pointer; the other faults are those of the register check and of the operand fetch of its
format. -/
theorem callPushesReturnAddressAndJumps : Obligations.CallPushesReturnAddressAndJumps := by
  refine ⟨fun r s hpc hsp => ?_,
    fun r s hpc => ⟨_, exec_call_address_fault r hpc, faultedWith_raise (.outOfRangeAddress 256) s, rfl⟩,
    fun r s hpc hsp => ⟨_, exec_call_sp_fault r hpc hsp, faultedWith_raise (.outOfRangeAddress (-1)) s, rfl⟩,
    fun _ s h => execFaults_illegal_first s rfl h, operandFetchFaults_byte .call, fun _ => rfl⟩
  refine ⟨_, exec_call_pushes r hpc hsp, ?_⟩
  obtain ⟨hdown, hread, hframe⟩ :=
    pushed_effect (t := (s.pushed (BitVec.ofNat 8 (s.pc.toNat + 2))).jumpTo ((s.setReg 7 (s.reg 7 - 1)).reg r)) hsp rfl
  refine ⟨hdown, fun hmem => ?_, ?_, hframe⟩
  · refine (congrArg BitVec.toNat (hread hmem)).trans ?_
    rw [BitVec.toNat_ofNat, Nat.mod_eq_of_lt (by omega)]
  · rw [jumpTo_pc_toNat, setReg_sp_reg]
    split_ifs
    · exact byte_pred_toNat hsp
    · rfl

end Sys2Proof.Machine
end

section
/-! The register check of the step: a register operand byte above 7, operand 0 before operand 1 (R83, R184, R187). -/

namespace Sys2Proof

theorem readR_illegal {o0 : Byte} (h : legalReg o0 = false) (mk : Byte → Instr) (rest : List Byte) :
    readR mk (o0 :: rest) = .error (.invalidRegister o0) := by
  rw [readR, if_neg (Bool.eq_false_iff.1 h)]

theorem readRR_illegal_first {o0 : Byte} (h : legalReg o0 = false) (mk : Byte → Byte → Instr) (o1 : Byte)
    (rest : List Byte) : readRR mk (o0 :: o1 :: rest) = .error (.invalidRegister o0) := by
  rw [readRR, if_neg (Bool.eq_false_iff.1 h)]

theorem readRR_illegal_second {o0 o1 : Byte} (h0 : legalReg o0 = true) (h1 : legalReg o1 = false)
    (mk : Byte → Byte → Instr) (rest : List Byte) : readRR mk (o0 :: o1 :: rest) = .error (.invalidRegister o1) := by
  rw [readRR, if_pos h0, if_neg (Bool.eq_false_iff.1 h1)]

theorem readRI_illegal {o0 : Byte} (h : legalReg o0 = false) (mk : Byte → Byte → Instr) (o1 : Byte) (rest : List Byte) :
    readRI mk (o0 :: o1 :: rest) = .error (.invalidRegister o0) := by
  rw [readRI, if_neg (Bool.eq_false_iff.1 h)]

/-- When all operand bytes are there, an illegal operand 0 is reported, whatever operand 1 is. -/
theorem readOperands_illegal_first {op : Opcode} {o0 : Byte} {rest : List Byte} (hop : op.format ≠ .z)
    (hlen : op.format.operandCount ≤ rest.length + 1) (h : legalReg o0 = false) :
    readOperands op (o0 :: rest) = .error (.invalidRegister o0) := by
  match op, rest, hlen with
  | .hlt, _, _ | .ret, _, _ => exact absurd rfl hop
  | .prn, _, _ | .push, _, _ | .pop, _, _ | .call, _, _ | .jmp, _, _ | .jeq, _, _ | .jne, _, _ => exact readR_illegal h _ _
  | .add, o1 :: _, _ | .mul, o1 :: _, _ | .cmp, o1 :: _, _ => exact readRR_illegal_first h _ o1 _
  | .ldi, o1 :: _, _ => exact readRI_illegal h _ o1 _

/-- An illegal operand 1 that is a register is reported when operand 0 is legal. -/
theorem readOperands_illegal_second {op : Opcode} {o0 o1 : Byte} {rest : List Byte} (hop : op.format = .rr)
    (h0 : legalReg o0 = true) (h1 : legalReg o1 = false) :
    readOperands op (o0 :: o1 :: rest) = .error (.invalidRegister o1) := by
  cases op with
  | add | mul | cmp => exact readRR_illegal_second h0 h1 _ _
  | hlt | ret | prn | push | pop | call | jmp | jeq | jne | ldi => cases hop

namespace Machine

/-- With an operand in range, the decoder is shown the first two bytes and what is left of the three. -/
theorem State.bytesAt_cons_cons (s : State) {a : Nat} (h : a + 1 ≤ 255) :
    ∃ rest, s.bytesAt a = s.mem.read a :: s.mem.read (a + 1) :: rest ∧ rest.length = min 1 (254 - a) := by
  obtain h | rfl : a ≤ 253 ∨ a = 254 := by omega
  · exact ⟨_, s.bytesAt_three h, by rw [List.length_singleton]; omega⟩
  · exact ⟨_, s.bytesAt_two, rfl⟩

/-- What the operand reader rejects is the fault of the step. -/
theorem stepFaults_of_readOperands_error {s : State} {op : Opcode} {operands : List Byte} {e : DecodeError}
    (hf : s.Fetches op.byte) (hbytes : s.bytesAt s.pc.toNat = s.byteAtPc :: operands)
    (he : readOperands op operands = .error e) :
    StepFaults (FaultKind.ofDecodeError e).code (FaultKind.ofDecodeError e).info op.byte s := by
  have ⟨_, _, hb⟩ := hf
  refine stepFaults_of_decodeNext_error hf ?_
  rw [State.decodeNext, hbytes, hb, decode_byte_cons, he]

theorem legalReg_of_le {b : Byte} (h : b.toNat ≤ 7) : legalReg b = true := decide_eq_true h

/-- Operand 0 above 7, all operand bytes in range: the step faults with it. -/
theorem stepFaults_first_operand {s : State} {op : Opcode} (hop : op.format ≠ .z) (hf : s.Fetches op.byte)
    (hlast : s.pc.toNat + op.format.operandCount ≤ 255) (h : 7 < (s.mem.read (s.pc.toNat + 1)).toNat) :
    StepFaults 4 ((s.mem.read (s.pc.toNat + 1)).setWidth 9) op.byte s := by
  have hcount : 1 ≤ op.format.operandCount := by
    cases hformat : op.format with
    | z => exact absurd hformat hop
    | r | rr | ri => decide
  obtain ⟨rest, hbytes, hlen⟩ := s.bytesAt_cons_cons (a := s.pc.toNat) (by omega)
  have := Format.operandCount_le_two op.format
  exact stepFaults_of_readOperands_error hf hbytes
    (readOperands_illegal_first hop (by omega) (legalReg_eq_false.2 h))

/-- Operand 1 above 7 and a register, operand 0 legal: the step faults with operand 1. -/
theorem stepFaults_second_operand {s : State} {op : Opcode} (hop : op.format = .rr) (hf : s.Fetches op.byte)
    (hlast : s.pc.toNat + 2 ≤ 255) (h0 : (s.mem.read (s.pc.toNat + 1)).toNat ≤ 7)
    (h1 : 7 < (s.mem.read (s.pc.toNat + 2)).toNat) :
    StepFaults 4 ((s.mem.read (s.pc.toNat + 2)).setWidth 9) op.byte s :=
  stepFaults_of_readOperands_error hf (s.bytesAt_three (by omega))
    (readOperands_illegal_second hop (legalReg_of_le h0) (legalReg_eq_false.2 h1))

/-- A byte in a list of instruction bytes is the byte of an opcode that has what all the listed opcodes have. -/
theorem exists_opcode_of_mem (ops : List Opcode) {P : Opcode → Prop} {b : Byte} (hP : ∀ op ∈ ops, P op)
    (h : b ∈ ops.map Opcode.byte) : ∃ op : Opcode, P op ∧ op.byte = b :=
  let ⟨op, hmem, hb⟩ := List.mem_map.1 h
  ⟨op, hP op hmem, hb⟩

/-- Settles O10: all operand bytes are in range, so the operand fetch succeeds, and the format's reader checks operand 0 first; the
check comes before the instruction's own rule, so that it does not matter whether the register would be read. -/
theorem registerOperandAboveSevenFaults : Obligations.RegisterOperandAboveSevenFaults := by
  refine fun s b hf => ⟨fun hb hlast h => ?_, fun hb hlast h => ?_, fun hb hlast h0 h1 => ?_⟩
  · obtain ⟨op, ⟨hop, hcount⟩, rfl⟩ := exists_opcode_of_mem [.prn, .push, .pop, .call, .jmp, .jeq, .jne]
      (P := fun op => op.format ≠ .z ∧ op.format.operandCount = 1) (by decide) hb
    exact stepFaults_first_operand hop hf (by rwa [hcount]) h
  · obtain ⟨op, ⟨hop, hcount⟩, rfl⟩ := exists_opcode_of_mem [.ldi, .add, .mul, .cmp]
      (P := fun op => op.format ≠ .z ∧ op.format.operandCount = 2) (by decide) hb
    exact stepFaults_first_operand hop hf (by rwa [hcount]) h
  · obtain ⟨op, hop, rfl⟩ := exists_opcode_of_mem [.add, .mul, .cmp] (P := fun op => op.format = .rr) (by decide) hb
    exact stepFaults_second_operand hop hf hlast h0 h1

end Machine
end Sys2Proof
end

section
/-! Two runs side by side: no instruction reads `ir`, the fault registers or the output, and `fl` is read as bit 0 by the conditional
jumps alone (R29, R31, R33, R35). -/

namespace Sys2Proof.Machine

/-- The state with other values in the flags, the instruction register, the fault registers and the output. -/
def State.withUnread (s : State) (f ir : Byte) (c : BitVec 3) (v : BitVec 9) (o : List Byte) : State :=
  { s with fl := f, ir := ir, fcause := c, finfo := v, out := o }

/-- A field that held `a` in one state and `a'` in another holds, after a step of each, `b` and `b'`: both steps kept it, or both
gave it one value. -/
def KeptOrEqual {α : Type} (a a' b b' : α) : Prop := (b = a ∧ b' = a') ∨ b' = b

theorem KeptOrEqual.eq {α : Type} {a b b' : α} (h : KeptOrEqual a a b b') : b' = b := by
  obtain ⟨hb, hb'⟩ | h := h
  · rw [hb, hb']
  · exact h

/-- `t` arises from `s` as `u` from `s'`: the same registers, `pc`, execution state and memory, the same values printed, and each
other field either kept by both or given one value. -/
structure Alike (s s' t u : State) : Prop where
  x : u.x = t.x
  pc : u.pc = t.pc
  run : u.run = t.run
  mem : u.mem = t.mem
  fl : KeptOrEqual s.fl s'.fl t.fl u.fl
  ir : KeptOrEqual s.ir s'.ir t.ir u.ir
  fcause : KeptOrEqual s.fcause s'.fcause t.fcause u.fcause
  finfo : KeptOrEqual s.finfo s'.finfo t.finfo u.finfo
  out : ∃ printed, t.out = s.out ++ printed ∧ u.out = s'.out ++ printed

section
variable (s : State) (f ir : Byte) (c : BitVec 3) (v : BitVec 9) (o : List Byte)

/-- Where nothing but registers, `pc`, `run` and memory changes, the other run changes the same. -/
theorem alike_of_frame {t : State} (h : { s with x := t.x, pc := t.pc, run := t.run, mem := t.mem } = t) :
    Alike s (s.withUnread f ir c v o) t (t.withUnread f ir c v o) := by
  rw [← h]
  exact ⟨rfl, rfl, rfl, rfl, .inl ⟨rfl, rfl⟩, .inl ⟨rfl, rfl⟩, .inl ⟨rfl, rfl⟩, .inl ⟨rfl, rfl⟩,
    [], (List.append_nil _).symm, (List.append_nil _).symm⟩

theorem alike_raise (e : FaultKind) : Alike s (s.withUnread f ir c v o) (s.raise e) ((s.withUnread f ir c v o).raise e) :=
  ⟨rfl, rfl, rfl, rfl, .inl ⟨rfl, rfl⟩, .inl ⟨rfl, rfl⟩, .inr rfl, .inr rfl,
    [], (List.append_nil _).symm, (List.append_nil _).symm⟩

/-- Two runs that decide alike between alike outcomes end alike. -/
theorem alike_ite {s s' t u t' u' : State} {p q : Prop} [Decidable p] [Decidable q] (hpq : p ↔ q) (h : Alike s s' t u)
    (h' : Alike s s' t' u') : Alike s s' (if p then t else t') (if q then u else u') := by
  by_cases hp : p
  · rwa [if_pos hp, if_pos (hpq.1 hp)]
  · rwa [if_neg hp, if_neg (mt hpq.2 hp)]

/-- `exec` of a well-formed instruction does not depend on the fields of `withUnread`, but for bit 0 of `fl` in JEQ and JNE. -/
theorem exec_alike {i : Instr} (h : i.WellFormed)
    (hfl : i.opcode = .jeq ∨ i.opcode = .jne → (s.withUnread f ir c v o).equalFlag = s.equalFlag) :
    ∃ t u, exec i s = .next t ∧ exec i (s.withUnread f ir c v o) = .next u ∧ Alike s (s.withUnread f ir c v o) t u := by
  have hframe := @alike_of_frame s f ir c v o
  have hraise := alike_raise s f ir c v o
  induction i, h using wellFormed_induction with
  | hlt => exact ⟨_, _, exec_hlt _, exec_hlt _, hframe rfl⟩
  | ldi r w => exact ⟨_, _, exec_ldi r w _, exec_ldi r w _, hframe rfl⟩
  | prn r =>
    exact ⟨_, _, exec_prn r _, exec_prn r _, rfl, rfl, rfl, rfl, .inl ⟨rfl, rfl⟩, .inl ⟨rfl, rfl⟩, .inl ⟨rfl, rfl⟩,
      .inl ⟨rfl, rfl⟩, _, rfl, rfl⟩
  | add a b => exact ⟨_, _, exec_add a b _, exec_add a b _, hframe rfl⟩
  | mul a b => exact ⟨_, _, exec_mul a b _, exec_mul a b _, hframe rfl⟩
  | cmp a b =>
    exact ⟨_, _, exec_cmp a b _, exec_cmp a b _, rfl, rfl, rfl, rfl, .inr rfl, .inl ⟨rfl, rfl⟩, .inl ⟨rfl, rfl⟩,
      .inl ⟨rfl, rfl⟩, [], (List.append_nil _).symm, (List.append_nil _).symm⟩
  | push r => exact ⟨_, _, exec_push r _, exec_push r _, alike_ite Iff.rfl (hraise _) (hframe rfl)⟩
  | pop r => exact ⟨_, _, exec_pop r _, exec_pop r _, alike_ite Iff.rfl (hraise _) (hframe rfl)⟩
  | call r =>
    exact ⟨_, _, exec_call r _, exec_call r _, alike_ite Iff.rfl (hraise _) (alike_ite Iff.rfl (hraise _) (hframe rfl))⟩
  | ret => exact ⟨_, _, exec_ret _, exec_ret _, alike_ite Iff.rfl (hraise _) (hframe rfl)⟩
  | jmp r => exact ⟨_, _, exec_jmp r _, exec_jmp r _, hframe rfl⟩
  | jeq r => exact ⟨_, _, exec_jeq r _, exec_jeq r _, alike_ite (by rw [hfl (.inl rfl)]) (hframe rfl) (hframe rfl)⟩
  | jne r => exact ⟨_, _, exec_jne r _, exec_jne r _, alike_ite (by rw [hfl (.inr rfl)]) (hframe rfl) (hframe rfl)⟩

end

/-- After a fetch of the same byte in both runs, `ir` holds one value from then on. -/
theorem Alike.of_setIr {s s' t u : State} {b : Byte} (h : Alike (s.setIr b) (s'.setIr b) t u) : Alike s s' t u :=
  ⟨h.x, h.pc, h.run, h.mem, h.fl, .inr h.ir.eq, h.fcause, h.finfo, h.out⟩

/-- A step of a RUNNING machine does not depend on the fields of `withUnread`, but for bit 0 of `fl` at a JEQ or JNE. -/
theorem step_alike {s : State} (hrun : s.run = .running) {f : Byte} (ir : Byte) (c : BitVec 3) (v : BitVec 9) (o : List Byte)
    (hfl : s.byteAtPc = 0x55 ∨ s.byteAtPc = 0x56 → f.getLsbD 0 = s.fl.getLsbD 0) :
    ∃ t u, step s = .next t ∧ step (s.withUnread f ir c v o) = .next u ∧ Alike s (s.withUnread f ir c v o) t u := by
  by_cases hpc : s.pc.toNat < 256
  · cases hd : s.decodeNext with
    | error e =>
      exact ⟨_, _, step_of_decodeNext_error hrun hpc hd, step_of_decodeNext_error (s := s.withUnread f ir c v o) hrun hpc hd,
        (alike_raise (s.setIr s.byteAtPc) f s.byteAtPc c v o e).of_setIr⟩
    | ok i =>
      have hi := State.decodeNext_eq_ok_iff.1 hd
      have hi' : (s.withUnread f ir c v o).Holds i := ⟨hi.wellFormed, hi.fits, hi.bytes⟩
      rw [step_of_holds hrun hi, step_of_holds (s := s.withUnread f ir c v o) hrun hi']
      obtain ⟨t, u, ht, hu, halike⟩ := exec_alike (s.setIr s.byteAtPc) f s.byteAtPc c v o hi.wellFormed (fun hop =>
        hfl (hop.imp (fun h => by rw [hi.byteAtPc_eq, h]; rfl) (fun h => by rw [hi.byteAtPc_eq, h]; rfl)))
      exact ⟨t, u, ht, hu, halike.of_setIr⟩
  · have hpc' := Nat.not_lt.1 hpc
    exact ⟨_, _, step_fetch_fault hrun hpc', step_fetch_fault (s := s.withUnread f ir c v o) hrun hpc',
      alike_raise s f ir c v o _⟩

/-- Settles O34: the two steps are alike, and with the flags the same they leave the same flags. -/
theorem diagnosticsAndOutputAreNotRead : Obligations.DiagnosticsAndOutputAreNotRead := by
  intro s b c v o hrun
  obtain ⟨t, u, ht, hu, h⟩ := step_alike hrun (f := s.fl) b c v o fun _ => rfl
  obtain ⟨printed, hout, hout'⟩ := h.out
  exact ⟨t, u, printed, ht, hu, h.x, h.pc, h.fl.eq, h.run, h.mem, hout, hout'⟩

/-- Two steps that are alike from states that differ in `fl` only end in states that differ in `fl` only. -/
theorem Alike.setFl_eq {s t u : State} {f : Byte} (h : Alike s (s.setFl f) t u) : u.setFl t.fl = t := by
  obtain ⟨hx, hpc, hrun, hmem, -, hir, hfcause, hfinfo, printed, hout, hout'⟩ := h
  have hsame : u.out = t.out := hout'.trans hout.symm
  cases t
  cases u
  simp only [State.setFl, State.mk.injEq]
  exact ⟨hx, hpc, trivial, hir.eq, hrun, hfcause.eq, hfinfo.eq, hmem, hsame⟩

theorem fl_kept {s t : State} (h : step s = .next t) (hb : s.byteAtPc ≠ 0xA7) : t.fl = s.fl :=
  not_not.1 fun hne =>
    have ⟨_, _, hcmp⟩ := onlyCmpWritesFlags s t h hne
    hb hcmp

/-- Settles O33: the two steps are alike, so that all fields but `fl` agree after them; `fl` is kept by both unless the instruction is
CMP, and a CMP that does not keep it gives both one value. -/
theorem flagsReadOnlyAsBitZeroByJumps : Obligations.FlagsReadOnlyAsBitZeroByJumps := by
  intro s f hrun hfl
  obtain ⟨t, u, ht, hu, h⟩ := step_alike hrun s.ir s.fcause s.finfo s.out hfl
  refine ⟨t, u, ht, hu, h.setFl_eq, ?_⟩
  by_cases hb : s.byteAtPc = 0xA7
  · exact h.fl.imp_right fun heq => ⟨hb, heq⟩
  · exact .inl ⟨fl_kept ht hb, fl_kept hu hb⟩

end Sys2Proof.Machine
end

section
/-! Memory, reset and the loader: what a write, an out-of-range access, a reset and a loaded image leave (R51 to R54, R64, R210,
R212). -/

namespace Sys2Proof.Machine

/-! ### Memory access -/

/-- A read depends on no cell but the one addressed. -/
theorem memRead_congr {s t : State} {a : Int} (h : inRange a = true → t.mem.read a.toNat = s.mem.read a.toNat) :
    t.memRead a = s.memRead a := by
  unfold State.memRead
  split_ifs with ha
  · rw [h ha]
  · rfl

/-- Settles O37: a write in range is a write of one cell of a canonical memory. -/
theorem memoryReadsBackWhatWasWritten : Obligations.MemoryReadsBackWhatWasWritten := by
  intro s a v hmem h0 h255
  lift a to ℕ using h0
  have ha : a < 256 := by omega
  refine ⟨_, s.memWrite_nat ha v, ?_, fun b hb => memRead_congr fun hr => ?_, Memory.wf_write hmem ha v, rfl⟩
  · rw [State.memRead_nat _ ha, State.setCell_mem, Memory.read_write_same hmem]
  · have := inRange_iff.1 hr
    exact Memory.read_write_ne _ _ (by omega)

/-- Settles O38: the range test refuses both accesses with the address, whose low nine bits are recorded. -/
theorem outOfRangeAddressesFault : Obligations.OutOfRangeAddressesFault := by
  refine ⟨fun s a v ha => ?_, rfl, rfl⟩
  have hr : inRange a = false := inRange_eq_false.2 ha
  exact ⟨by rw [State.memRead, hr]; rfl, by rw [State.memWrite, hr]; rfl⟩

/-! ### Reset -/

/-- Settles O39: the reset values, register by register, over the memory that lists no cell. -/
theorem resetState : Obligations.ResetState :=
  ⟨by decide, rfl, rfl, rfl, rfl, rfl, rfl, rfl, fun _ => rfl⟩

/-- Settles O40: reset keeps memory and takes every other field from the reset state. -/
theorem resetLeavesMemory : Obligations.ResetLeavesMemory := fun _ => ⟨rfl, rfl⟩

/-! ### Loading -/

/-- Bytes stored within the memory lie there one after the other; every later cell is as it was. -/
theorem Memory.read_writeBytes {m : Memory} (h : m.wf) {a : Nat} {bs : List Byte} (hfits : a + bs.length ≤ 256) (k : Nat) :
    (m.writeBytes a bs).read (a + k) = bs[k]?.getD (m.read (a + k)) := by
  induction bs generalizing m a k with
  | nil => rfl
  | cons b bs ih =>
    rw [List.length_cons] at hfits
    have ha : a < Config.memSize := by rw [Config.memSize]; omega
    rw [Memory.writeBytes, if_pos ha]
    cases k with
    | zero => exact (Memory.read_writeBytes_below _ bs (Nat.lt_succ_self a)).trans (Memory.read_write_same h a b)
    | succ k =>
      have hk : a + (k + 1) = a + 1 + k := by omega
      rw [hk, ih (Memory.wf_write h ha b) (by omega), List.getElem?_cons_succ, Memory.read_write_ne _ _ (by omega)]

theorem Memory.read_ofImage {img : List Byte} (hfits : img.length ≤ 256) (a : Nat) :
    (Memory.ofImage img).read a = img[a]?.getD 0 := by
  have h := Memory.read_writeBytes Memory.wf_nil (a := 0) (bs := img) (by omega) a
  rwa [Nat.zero_add] at h

theorem read_ofImage_past {img : List Byte} (hfits : img.length ≤ 256) {a : Nat} (ha : img.length ≤ a) :
    (Memory.ofImage img).read a = 0 := by
  rw [Memory.read_ofImage hfits, List.getElem?_eq_none ha]
  rfl

/-- Settles O41: the image's bytes lie from address 0; past them a cell reads 0x00, which is no instruction byte. -/
theorem loadedImageLiesFromAddressZero : Obligations.LoadedImageLiesFromAddressZero := by
  refine ⟨fun img hfits => ⟨_, if_pos hfits, Memory.wf_ofImage img, fun a ha => ?_, fun a ha => read_ofImage_past hfits ha, rfl,
    fun t hmem hrun hpast hpc => ?_⟩, fun img hlong => if_neg (Nat.not_le.2 hlong)⟩
  · rw [Memory.read_ofImage hfits, List.getElem?_eq_getElem ha]
    rfl
  · have hbyte : t.byteAtPc = 0 := by
      rw [State.byteAtPc, hmem]
      exact read_ofImage_past hfits hpast
    exact unknownOpcodeFaults t 0 ⟨hrun, hpc, hbyte⟩ (by decide)

end Sys2Proof.Machine
end
